-- ==== Sys2Proof/Word.lean ====
section
/-! DEFINITION. The value kinds of `00_scope.md` rules R7, R10 and R14: bytes, the wide operand and result word, the
manufacturer code. A character is a byte (rule R14). -/

namespace Sys2Proof

/-- `u8`: a byte, and equally a character code (R7, R14). -/
abbrev Byte := BitVec 8

/-- The four bits of a nibble (R7, R15). -/
abbrev Nibble := BitVec 4

/-- The bit pattern of a 16-bit manufacturer code; `toInt` reads it as `s16` (R7, R10). -/
abbrev Code16 := BitVec 16

/-- The wide operand bus `A` and the result bus `R` (R7). -/
abbrev Word := BitVec 32

/-- The request word `RQ` (`30_encoding.md` R60). -/
abbrev RequestWord := BitVec 48

end Sys2Proof
end

