-- ==== Sys2Proof/Config.lean ====
section
/-! DEFINITION. The identity of the block (`00_scope.md` R1, R3) and its OPEN parameters (R7, `10_state.md` R20).

Every rule that reads an OPEN parameter is written over a `Config` argument, as R20 writes `exec : Config → Request →
Outcome`; the machine itself runs at `Config.built`, of which nothing is known. -/

namespace Sys2Proof

/-- The part identifier of the block (R1). -/
def partIdentifier : String := "EMCB-D00v7-1"

/-- The ISA string (R3). -/
def isaString : String := "EMCB1"

/-- The ISA version (R3). -/
def isaVersion : Nat := 1

/-- The vendor field, which is empty (R1). -/
def vendor : String := ""

/-- The OPEN parameters the model takes as arguments (R7). `HEXDEC_BADCHAR` is not among them: R20 says that the model
does not consult it. -/
structure Config where
  /-- How far `MAX_SEQ` lies above its least value 3; `none` where it is unbounded (`10_state.md` R22). Counting from 3
  makes `MAX_SEQ ≥ 3` hold of every `Config`. -/
  seqBeyond3 : Option Nat
  /-- `cfgGetBitHigh`: the result of GETBIT for a position of 8 or more (`41_bit_unit.md` R116). -/
  getBitHigh : Byte → Byte → Bool
  /-- `cfgSetBitHigh`: the result of SETBIT for a position of 8 or more (`41_bit_unit.md` R116). -/
  setBitHigh : Byte → Byte → Byte
  /-- `cfgMfrNameNeg`: the three codes of MFRNAME16 and MFRNAME32 on a negative code (`43_manufacturer.md` R177). -/
  mfrNameNeg : Code16 → Byte × Byte × Byte
  deriving Inhabited

/-- `MAX_SEQ`; `none` where it is unbounded (R7, `10_state.md` R22). -/
def Config.maxSeq (c : Config) : Option Nat := c.seqBeyond3.map (3 + ·)

/-- `n ≤ MAX_SEQ`. Lengths up to 3 are settled without looking at the parameter, since `MAX_SEQ ≥ 3` (R22). -/
def Config.fits (c : Config) (n : Nat) : Bool :=
  decide (n ≤ 3) ||
    match c.maxSeq with
    | none => true
    | some m => decide (n ≤ m)

/-- The configuration fixed when this block was built (`70_reset_and_hazards.md` R231). It has no body: no proof can see
what it is, so a claim about the machine holds whatever it is (log entry 1). -/
opaque Config.built : Config

end Sys2Proof
end

