-- ==== Sys2Proof/Syntax.lean ====
section
/-! DEFINITION. The command set `EMCB1`: a request as the host presents it (`10_state.md` R21) and the fifteen commands
with their operands (`30_encoding.md` R62, R64). -/

namespace Sys2Proof

/-- A request: the three fields of the 48-bit request word and the sequence operand beside it (R21, R60). -/
structure Request where
  opc : Byte
  a : Word
  b : Byte
  s : List Byte
  deriving DecidableEq, Repr

/-- The four functional units (`00_scope.md` R2). -/
inductive FunctionalUnit where
  | nib
  | bit
  | hex
  | mfr
  deriving DecidableEq, Repr

/-- The commands, one constructor per row of the opcode table, with the operands R64 assembles for each. -/
inductive Instr where
  | hinib (b : Byte)
  | lonib (b : Byte)
  | getbit (b p : Byte)
  | setbit (b p : Byte)
  | mask (b m : Byte)
  | or (b o : Byte)
  | shr (b n : Byte)
  | shl (b n : Byte)
  | hexb (b : Byte)
  | hexenc (s : List Byte)
  | hexdec (s : List Byte)
  | mfrpack (s : List Byte)
  | mfrname16 (x : Code16)
  | mfrname32 (w : Word)
  | extbit (b : Byte)
  deriving DecidableEq, Repr

/-- The unit that runs a command (`00_scope.md` R2; EXTBIT sits in MFR, `90_conflicts.md` C5). -/
def Instr.unit : Instr → FunctionalUnit
  | .hinib _ => .nib
  | .lonib _ => .nib
  | .getbit _ _ => .bit
  | .setbit _ _ => .bit
  | .mask _ _ => .bit
  | .or _ _ => .bit
  | .shr _ _ => .bit
  | .shl _ _ => .bit
  | .hexb _ => .hex
  | .hexenc _ => .hex
  | .hexdec _ => .hex
  | .mfrpack _ => .mfr
  | .mfrname16 _ => .mfr
  | .mfrname32 _ => .mfr
  | .extbit _ => .mfr

end Sys2Proof
end

