-- ==== Sys2Proof/Machine/State.lean ====
section
/-! DEFINITION. The response of a command (`10_state.md` R23, R24), the state of the port (`70_reset_and_hazards.md` R230,
R231, R236), the reasons a step can stop (R27), and the state after reset.

The block holds nothing between commands (R36): `request`, `response` and `waiting` are the exchange in hand, and
`incoming` and `delivered` are the host's side of it (log entry 5). -/

namespace Sys2Proof.Machine

/-- The completion status of a response (R24). -/
inductive Status where
  /-- 0: the command completed. -/
  | ok
  /-- 1: HEXDEC on an odd length (R201). -/
  | eHexlen
  /-- 2: MFRPACK on a length other than 3 (R204). -/
  | eMfrlen
  /-- 3: the opcode selects no command (R202). -/
  | eIllop
  deriving DecidableEq, Repr

/-- A response: status, scalar result `R`, sequence result `T` (R23). -/
structure Response where
  status : Status
  r : Word
  t : List Byte
  deriving DecidableEq, Repr

/-- What the host does at the port in one step (R236). -/
inductive HostAct where
  /-- It presents a request. -/
  | command (q : Request)
  /-- It reads the response port, waiting for the response where one is to come. -/
  | collect
  /-- It resets the block (R232). -/
  | reset
  /-- It does nothing for one step of the block. -/
  | wait
  deriving DecidableEq, Repr

/-- The block's port, and the host's side of it. -/
structure State where
  /-- The request in progress: accepted and not yet answered (R50, R54). -/
  request : Option Request
  /-- The response held until the host takes it (R236). -/
  response : Option Response
  /-- Requests presented and not yet accepted, oldest first (R54, R236). That any number may wait is the model's choice (log
  entry 15). -/
  waiting : List Request
  /-- The model's own: what the host does from here on, oldest first. -/
  incoming : List HostAct
  /-- The model's own: the responses the host has collected, oldest first (R237). -/
  delivered : List Response
  deriving DecidableEq, Repr

/-- Why the machine stops without a next state. -/
inductive Fault where
  /-- `Undefined(HexBadChar)`: HEXDEC on an even-length `S` that holds a non-hex code (R27, R148). Raised by HEXDEC alone.
  Safe: the spec gives no response, and no claim can be made of one. -/
  | hexBadChar
  /-- A response is held and the host does nothing more: the block waits with it for ever, and "the model has no further
  step for that block" (R236). Raised by the port. Safe: the machine claims nothing beyond this point. -/
  | responseHeld
  deriving DecidableEq, Repr

/-- Why the machine gives an action no meaning. -/
inductive Refusal where
  /-- An instruction without a meaning yet. No arm raises it. Safe. -/
  | notModelled (mnemonic : String)
  /-- `Refused(SeqTooLong)`: the sequence operand, or HEXENC's result, is longer than `MAX_SEQ` (R22, R25, R27). Raised
  by the port for every opcode, and by HEXENC. Safe: the spec gives no response. -/
  | seqTooLong
  /-- The host reads the response port with no response held and none to come (R231, I9). Raised by the port. Safe: the
  value there is unspecified and the model does not give one. -/
  | noResponse
  deriving DecidableEq, Repr

/-- After reset nothing is pending: no request is in progress and no response is held (R230). -/
def State.reset : State where
  request := none
  response := none
  waiting := []
  incoming := []
  delivered := []

end Sys2Proof.Machine
end

