-- ==== Sys2Proof/Machine/Flags.lean ====
section
/-! DEFINITION. The block has no flag register and no command writes a flag (`10_state.md` R32). What a command reports
besides its result is the 2-bit status of its own response (R24), and a boolean result is a value in `R[0]` (R26). -/

namespace Sys2Proof.Machine

/-- The 2-bit code of a status (R24). -/
def Status.code : Status → BitVec 2
  | .ok => 0
  | .eHexlen => 1
  | .eMfrlen => 2
  | .eIllop => 3

/-- A boolean result as `R` carries it: `zext_32(bool(c))` (R26). -/
def boolWord (c : Bool) : Word := if c then 1 else 0

end Sys2Proof.Machine
end

