-- ==== Sys2Proof/Machine/Operands.lean ====
section
/-! DEFINITION. How the units read their operands: nibbles of a byte (`00_scope.md` R15), the hex digits (`42_hex.md`
R140 to R143), the three fields of a manufacturer code (`43_manufacturer.md` R170, R171, R176). -/

namespace Sys2Proof.Machine

/-- `b[7:4]` (R15, `40_nibble.md` R100). -/
def highNibble (b : Byte) : Nibble := b.extractLsb' 4 4

/-- `b[3:0]` (R15, `40_nibble.md` R101). -/
def lowNibble (b : Byte) : Nibble := b.extractLsb' 0 4

/-- `hexChar(n)`: the code of a nibble's uppercase hex digit (R140). -/
def hexChar (n : Nibble) : Byte :=
  if n.toNat < 10 then BitVec.ofNat 8 (48 + n.toNat) else BitVec.ofNat 8 (55 + n.toNat)

/-- D00's branchless form of `hexChar`, on 32-bit two's-complement integers with an arithmetic right shift (R141). -/
def hexCharBranchless (n : Nibble) : Word :=
  let d := n.setWidth 32 - 10#32
  55#32 + n.setWidth 32 + (d.sshiftRight 31 &&& (-7#32))

/-- `c` lies in the range of codes from `lo` to `hi`. -/
def inRange (lo hi : Nat) (c : Byte) : Bool := decide (lo ≤ c.toNat) && decide (c.toNat ≤ hi)

/-- `isHex(c)`: `'0'..'9'`, `'A'..'F'` or `'a'..'f'` (R142). -/
def isHex (c : Byte) : Bool := inRange 0x30 0x39 c || inRange 0x41 0x46 c || inRange 0x61 0x66 c

/-- `up(c)`: a lowercase hex letter becomes uppercase and every other code stays (R143, R144). -/
def up (c : Byte) : Byte := if inRange 0x61 0x66 c then c - 0x20 else c

/-- `hexVal(c)`: the value of a hex digit of either case (R143). For a code that is no hex digit the spec gives no value;
HEXDEC never asks for one (R147). -/
def hexVal (c : Byte) : Byte := if inRange 0x30 0x39 (up c) then up c - 0x30 else up c - 0x37

/-- The sum MFRPACK forms, exactly: each letter's code less 64, weighted 1024, 32 and 1 (R170, `20_memory.md` R44). -/
def packSum (c0 c1 c2 : Byte) : Int :=
  ((c0.toNat : Int) - 64) * 1024 + ((c1.toNat : Int) - 64) * 32 + ((c2.toNat : Int) - 64)

/-- The three codes of a non-negative manufacturer code (R171). -/
def unpackNat (x : Nat) : List Byte :=
  [BitVec.ofNat 8 (64 + x / 1024), BitVec.ofNat 8 (64 + x % 1024 / 32), BitVec.ofNat 8 (64 + x % 32)]

/-- The 32-to-16-bit narrowing of MFRNAME32: two's-complement truncation (R176). -/
def narrow16 (w : Word) : Code16 := w.setWidth 16

end Sys2Proof.Machine
end

