-- ==== Sys2Proof/Machine/Ops.lean ====
section
/-! DEFINITION. The shared operations: forming a response (`10_state.md` R26), raising an error (`60_exceptions.md` R203),
completing a request with its outcome (R27), and the port's moves between request and response
(`70_reset_and_hazards.md` R230, R232, R236, R237). -/

namespace Sys2Proof.Machine

/-- The outcome of a command (R27): `next` is `Resp`, `fault` is `Undefined`, `refused` is `Refused`. -/
abbrev Reply := Host.Outcome Response Fault Refusal

/-- `R <- v; T <- []; status <- OK` (R26). -/
def Response.scalar (v : Word) : Response := ⟨.ok, v, []⟩

/-- A byte result, zero-extended (R26). -/
def Response.byte (v : Byte) : Response := .scalar (v.setWidth 32)

/-- A boolean result in `R[0]` (R26). -/
def Response.bool (c : Bool) : Response := .scalar (boolWord c)

/-- The 16-bit code's bit pattern, zero-extended (R26). -/
def Response.code (m : Code16) : Response := .scalar (m.setWidth 32)

/-- A sequence result, with `R = 0` (R26). -/
def Response.seq (l : List Byte) : Response := ⟨.ok, 0, l⟩

/-- `raise Error(code)`: the one way an error is taken. The response carries the status and nothing else, and no state is
saved, no mode changed and no control transferred (R203, R205). -/
def Response.error (e : Status) : Response := ⟨e, 0, []⟩

/-- The request in progress ends and its response is held for the host (R50, R236). -/
def State.complete (r : Response) (s : State) : State := { s with request := none, response := some r }

/-- A command ends with its outcome (R27, R237). -/
def State.answer (o : Reply) (s : State) : Host.Outcome State Fault Refusal :=
  match o with
  | .next r => .next (s.complete r)
  | .fault f => .fault f
  | .refused f => .refused f

/-- The block accepts a waiting request (R54). -/
def State.accept (q : Request) (rest : List Request) (s : State) : State :=
  { s with request := some q, waiting := rest }

/-- The host presents a request (R236); it waits behind those presented before it (R54). DESIGN CHOICE (log entry 15): any
number may wait, none is lost, and the host goes on meanwhile. R236 obliges the host to issue one request at a time, says
that an early one is not accepted until the earlier response has been delivered, and gives no guarantee beyond. -/
def State.present (q : Request) (s : State) : State := { s with waiting := s.waiting ++ [q] }

/-- The held response goes to the host, and the block holds nothing again (R237). -/
def State.deliver (r : Response) (s : State) : State :=
  { s with response := none, delivered := s.delivered ++ [r] }

/-- A reset: the end of every request not yet answered, with no response, and no response held (R230, R232). What the
host has collected is its own (R237). -/
def State.cancel (s : State) : State := { s with request := none, response := none, waiting := [] }

/-- The rest of what the host does. -/
def State.setIncoming (h : List HostAct) (s : State) : State := { s with incoming := h }

end Sys2Proof.Machine
end

