-- ==== Sys2Proof/Machine/BitUnit.lean ====
section
/-! DEFINITION. The bit test/set unit: GETBIT, SETBIT, MASK, OR, SHR and SHL (`41_bit_unit.md`). Every result is a byte or
a boolean, formed at 8 bits (R118). -/

namespace Sys2Proof.Machine

/-- GETBIT (R110); a position of 8 or more gives the OPEN value of the configuration (R116). -/
def getbitReply (c : Config) (b p : Byte) : Reply :=
  .next (.bool (if p.toNat ≤ 7 then b.getLsbD p.toNat else c.getBitHigh b p))

/-- SETBIT (R111); a position of 8 or more gives the OPEN value of the configuration (R116). -/
def setbitReply (c : Config) (b p : Byte) : Reply :=
  .next (.byte (if p.toNat ≤ 7 then b ||| (1#8 <<< p.toNat) else c.setBitHigh b p))

/-- MASK (R112). -/
def maskReply (b m : Byte) : Reply := .next (.byte (b &&& m))

/-- OR (R113). -/
def orReply (b o : Byte) : Reply := .next (.byte (b ||| o))

/-- SHR: a logical shift, 0 for an amount of 8 or more (R114). -/
def shrReply (b n : Byte) : Reply := .next (.byte (if n.toNat ≤ 7 then b >>> n.toNat else 0))

/-- SHL: a shift at 8 bits, 0 for an amount of 8 or more (R115). -/
def shlReply (b n : Byte) : Reply := .next (.byte (if n.toNat ≤ 7 then b <<< n.toNat else 0))

/-- GETBIT as a machine step (R110). -/
def execGetbit (b p : Byte) (s : State) : Host.Outcome State Fault Refusal := s.answer (getbitReply Config.built b p)

/-- SETBIT as a machine step (R111). -/
def execSetbit (b p : Byte) (s : State) : Host.Outcome State Fault Refusal := s.answer (setbitReply Config.built b p)

/-- MASK as a machine step (R112). -/
def execMask (b m : Byte) (s : State) : Host.Outcome State Fault Refusal := s.answer (maskReply b m)

/-- OR as a machine step (R113). -/
def execOr (b o : Byte) (s : State) : Host.Outcome State Fault Refusal := s.answer (orReply b o)

/-- SHR as a machine step (R114). -/
def execShr (b n : Byte) (s : State) : Host.Outcome State Fault Refusal := s.answer (shrReply b n)

/-- SHL as a machine step (R115). -/
def execShl (b n : Byte) (s : State) : Host.Outcome State Fault Refusal := s.answer (shlReply b n)

end Sys2Proof.Machine
end

