-- ==== Sys2Proof/Machine/Hex.lean ====
section
/-! DEFINITION. The hex encoder/decoder: HEXB, HEXENC and HEXDEC (`42_hex.md`). -/

namespace Sys2Proof.Machine

/-- The two hex characters of a byte, the high nibble first (R145, `20_memory.md` R42). -/
def hexPair (b : Byte) : List Byte := [hexChar (highNibble b), hexChar (lowNibble b)]

/-- The hex characters of a byte sequence, in its order (R146, `20_memory.md` R43). -/
def hexEncode (l : List Byte) : List Byte := l.flatMap hexPair

/-- The bytes of a sequence of hex characters: the first of each pair is the high nibble (R147, `20_memory.md` R42). -/
def hexDecode : List Byte → List Byte
  | hi :: lo :: rest => ((hexVal hi <<< 4) ||| hexVal lo) :: hexDecode rest
  | _ => []

/-- HEXB (R145). -/
def hexbReply (b : Byte) : Reply := .next (.seq (hexPair b))

/-- HEXENC, with its capacity refusal (R146, `10_state.md` R25). -/
def hexencReply (c : Config) (l : List Byte) : Reply :=
  if c.fits (2 * l.length) then .next (.seq (hexEncode l)) else .refused .seqTooLong

/-- HEXDEC: the length is tested before the characters (R147, R148, R149). -/
def hexdecReply (l : List Byte) : Reply :=
  if l.length % 2 = 1 then .next (.error .eHexlen)
  else if l.all isHex then .next (.seq (hexDecode l))
  else .fault .hexBadChar

/-- HEXB as a machine step (R145). -/
def execHexb (b : Byte) (s : State) : Host.Outcome State Fault Refusal := s.answer (hexbReply b)

/-- HEXENC as a machine step (R146). -/
def execHexenc (l : List Byte) (s : State) : Host.Outcome State Fault Refusal := s.answer (hexencReply Config.built l)

/-- HEXDEC as a machine step (R147). -/
def execHexdec (l : List Byte) (s : State) : Host.Outcome State Fault Refusal := s.answer (hexdecReply l)

end Sys2Proof.Machine
end

