-- ==== Sys2Proof/Machine/Manufacturer.lean ====
section
/-! DEFINITION. The manufacturer code packer/unpacker: MFRPACK, MFRNAME16, MFRNAME32 and EXTBIT (`43_manufacturer.md`). -/

namespace Sys2Proof.Machine

/-- MFRPACK: no character is validated (R179), and a sum outside `int16` wraps modulo 2^16 (R170, R178). -/
def mfrpackReply (l : List Byte) : Reply :=
  match l with
  | [c0, c1, c2] => .next (.code (BitVec.ofInt 16 (packSum c0 c1 c2)))
  | _ => .next (.error .eMfrlen)

/-- The three codes of a manufacturer code read as `s16`: the unpacked fields of a non-negative one (R171), the OPEN
value of the configuration for a negative one (R177). -/
def mfrName (c : Config) (x : Code16) : List Byte :=
  if 0 ≤ x.toInt then unpackNat x.toNat
  else [(c.mfrNameNeg x).1, (c.mfrNameNeg x).2.1, (c.mfrNameNeg x).2.2]

/-- MFRNAME16 (R171, R177). -/
def mfrname16Reply (c : Config) (x : Code16) : Reply := .next (.seq (mfrName c x))

/-- MFRNAME32: narrowed to `s16`, then as MFRNAME16 (R175, R176, R177). -/
def mfrname32Reply (c : Config) (w : Word) : Reply := .next (.seq (mfrName c (narrow16 w)))

/-- EXTBIT, in the mask form of R180. -/
def extbitReply (b : Byte) : Reply := .next (.bool (b &&& 0x80#8 == 0x80#8))

/-- MFRPACK as a machine step (R170). -/
def execMfrpack (l : List Byte) (s : State) : Host.Outcome State Fault Refusal := s.answer (mfrpackReply l)

/-- MFRNAME16 as a machine step (R171). -/
def execMfrname16 (x : Code16) (s : State) : Host.Outcome State Fault Refusal :=
  s.answer (mfrname16Reply Config.built x)

/-- MFRNAME32 as a machine step (R175). -/
def execMfrname32 (w : Word) (s : State) : Host.Outcome State Fault Refusal :=
  s.answer (mfrname32Reply Config.built w)

/-- EXTBIT as a machine step (R180). -/
def execExtbit (b : Byte) (s : State) : Host.Outcome State Fault Refusal := s.answer (extbitReply b)

end Sys2Proof.Machine
end

