-- ==== Sys2Proof/Machine/Nibble.lean ====
section
/-! DEFINITION. The nibble extractor: HINIB and LONIB (`40_nibble.md`). -/

namespace Sys2Proof.Machine

/-- HINIB (R100). -/
def hinibReply (b : Byte) : Reply := .next (.scalar ((highNibble b).setWidth 32))

/-- LONIB (R101). -/
def lonibReply (b : Byte) : Reply := .next (.scalar ((lowNibble b).setWidth 32))

/-- HINIB as a machine step (R100). -/
def execHinib (b : Byte) (s : State) : Host.Outcome State Fault Refusal := s.answer (hinibReply b)

/-- LONIB as a machine step (R101). -/
def execLonib (b : Byte) (s : State) : Host.Outcome State Fault Refusal := s.answer (lonibReply b)

end Sys2Proof.Machine
end

