-- ==== Sys2Proof/Machine/Dispatch.lean ====
section
/-! DEFINITION. One arm per command (`30_encoding.md` R62). -/

namespace Sys2Proof.Machine

def exec (i : Instr) (s : State) : Host.Outcome State Fault Refusal :=
  match i with
  | .hinib b => Sys2Proof.Machine.execHinib b s
  | .lonib b => Sys2Proof.Machine.execLonib b s
  | .getbit b p => Sys2Proof.Machine.execGetbit b p s
  | .setbit b p => Sys2Proof.Machine.execSetbit b p s
  | .mask b m => Sys2Proof.Machine.execMask b m s
  | .or b o => Sys2Proof.Machine.execOr b o s
  | .shr b n => Sys2Proof.Machine.execShr b n s
  | .shl b n => Sys2Proof.Machine.execShl b n s
  | .hexb b => Sys2Proof.Machine.execHexb b s
  | .hexenc l => Sys2Proof.Machine.execHexenc l s
  | .hexdec l => Sys2Proof.Machine.execHexdec l s
  | .mfrpack l => Sys2Proof.Machine.execMfrpack l s
  | .mfrname16 x => Sys2Proof.Machine.execMfrname16 x s
  | .mfrname32 w => Sys2Proof.Machine.execMfrname32 w s
  | .extbit b => Sys2Proof.Machine.execExtbit b s

end Sys2Proof.Machine
end

