-- ==== Sys2Proof/Decode.lean ====
section
/-! DEFINITION. The request word and its fields (`30_encoding.md` R60), the decoder (R62, R63, R64, R67), and the
encoder, which writes every ignored field as zero (R65, R69). -/

namespace Sys2Proof

/-- The request whose word is `w` and whose sequence operand is `s`: `RQ = {A, B, OPC}` (R60). -/
def Request.ofWord (w : RequestWord) (s : List Byte) : Request where
  opc := w.extractLsb' 0 8
  b := w.extractLsb' 8 8
  a := w.extractLsb' 16 32
  s := s

/-- The request word `{A, B, OPC}` of a request (R60). -/
def Request.word (q : Request) : RequestWord := (q.a ++ q.b) ++ q.opc

/-- `A[7:0]`, the byte operand (R64). -/
def Request.byteA (q : Request) : Byte := q.a.extractLsb' 0 8

/-- `A[15:0]`, the 16-bit code operand (R64). -/
def Request.codeA (q : Request) : Code16 := q.a.extractLsb' 0 16

/-- What the decoder makes of a request: a command, or an opcode that selects none (R63, R67). -/
inductive Decoded where
  | instr (i : Instr)
  | illegal (opc : Byte)
  deriving DecidableEq, Repr

/-- The decoder: it compares all eight bits of `OPC` with the fifteen assigned values (R62, R63) and assembles the
operands of the command it finds (R64). Every other opcode is illegal (R67). -/
def decode (q : Request) : Decoded :=
  match q.opc with
  | 0x10#8 => .instr (.hinib q.byteA)
  | 0x11#8 => .instr (.lonib q.byteA)
  | 0x20#8 => .instr (.getbit q.byteA q.b)
  | 0x21#8 => .instr (.setbit q.byteA q.b)
  | 0x22#8 => .instr (.mask q.byteA q.b)
  | 0x23#8 => .instr (.or q.byteA q.b)
  | 0x24#8 => .instr (.shr q.byteA q.b)
  | 0x25#8 => .instr (.shl q.byteA q.b)
  | 0x30#8 => .instr (.hexb q.byteA)
  | 0x31#8 => .instr (.hexenc q.s)
  | 0x32#8 => .instr (.hexdec q.s)
  | 0x40#8 => .instr (.mfrpack q.s)
  | 0x41#8 => .instr (.mfrname16 q.codeA)
  | 0x42#8 => .instr (.mfrname32 q.a)
  | 0x43#8 => .instr (.extbit q.byteA)
  | other => .illegal other

/-- The opcode of a command (R62). -/
def Instr.opcode : Instr → Byte
  | .hinib _ => 0x10#8
  | .lonib _ => 0x11#8
  | .getbit _ _ => 0x20#8
  | .setbit _ _ => 0x21#8
  | .mask _ _ => 0x22#8
  | .or _ _ => 0x23#8
  | .shr _ _ => 0x24#8
  | .shl _ _ => 0x25#8
  | .hexb _ => 0x30#8
  | .hexenc _ => 0x31#8
  | .hexdec _ => 0x32#8
  | .mfrpack _ => 0x40#8
  | .mfrname16 _ => 0x41#8
  | .mfrname32 _ => 0x42#8
  | .extbit _ => 0x43#8

/-- What the encoder drives on bus `A` for a command: its operand zero-extended, or zero (R64, R69). -/
def Instr.busA : Instr → Word
  | .hinib b => b.setWidth 32
  | .lonib b => b.setWidth 32
  | .getbit b _ => b.setWidth 32
  | .setbit b _ => b.setWidth 32
  | .mask b _ => b.setWidth 32
  | .or b _ => b.setWidth 32
  | .shr b _ => b.setWidth 32
  | .shl b _ => b.setWidth 32
  | .hexb b => b.setWidth 32
  | .hexenc _ => 0
  | .hexdec _ => 0
  | .mfrpack _ => 0
  | .mfrname16 x => x.setWidth 32
  | .mfrname32 w => w
  | .extbit b => b.setWidth 32

/-- What the encoder drives on bus `B` for a command: its second operand, or zero (R64, R69). -/
def Instr.busB : Instr → Byte
  | .hinib _ => 0
  | .lonib _ => 0
  | .getbit _ p => p
  | .setbit _ p => p
  | .mask _ m => m
  | .or _ o => o
  | .shr _ n => n
  | .shl _ n => n
  | .hexb _ => 0
  | .hexenc _ => 0
  | .hexdec _ => 0
  | .mfrpack _ => 0
  | .mfrname16 _ => 0
  | .mfrname32 _ => 0
  | .extbit _ => 0

/-- The sequence operand a command carries; `[]` for a command that reads no `S` (`30_encoding.md` R64, R69). -/
def Instr.seqOperand : Instr → List Byte
  | .hinib _ => []
  | .lonib _ => []
  | .getbit _ _ => []
  | .setbit _ _ => []
  | .mask _ _ => []
  | .or _ _ => []
  | .shr _ _ => []
  | .shl _ _ => []
  | .hexb _ => []
  | .hexenc s => s
  | .hexdec s => s
  | .mfrpack s => s
  | .mfrname16 _ => []
  | .mfrname32 _ => []
  | .extbit _ => []

/-- The encoder: the request that issues a command, every ignored field zero (R65, R69). -/
def encode (i : Instr) : Request where
  opc := i.opcode
  a := i.busA
  b := i.busB
  s := i.seqOperand

/-- `OPC[7:4]` of a unit's commands (R61). -/
def FunctionalUnit.code : FunctionalUnit → Nibble
  | .nib => 0x1
  | .bit => 0x2
  | .hex => 0x3
  | .mfr => 0x4

/-- The bits of the request word that the command with opcode `opc` reads, `OPC` among them (R64, R65; the `encoding`
column of the opcode table). An illegal opcode reads no operand bit (R63). -/
def readMask (opc : Byte) : RequestWord :=
  match opc with
  | 0x10#8 => 0x000000FF00FF#48
  | 0x11#8 => 0x000000FF00FF#48
  | 0x20#8 => 0x000000FFFFFF#48
  | 0x21#8 => 0x000000FFFFFF#48
  | 0x22#8 => 0x000000FFFFFF#48
  | 0x23#8 => 0x000000FFFFFF#48
  | 0x24#8 => 0x000000FFFFFF#48
  | 0x25#8 => 0x000000FFFFFF#48
  | 0x30#8 => 0x000000FF00FF#48
  | 0x41#8 => 0x0000FFFF00FF#48
  | 0x42#8 => 0xFFFFFFFF00FF#48
  | 0x43#8 => 0x000000FF00FF#48
  | _ => 0x0000000000FF#48

/-- The command with opcode `opc` reads `S` (R64). -/
def readsSeq (opc : Byte) : Bool := opc == 0x31#8 || opc == 0x32#8 || opc == 0x40#8

/-- The command the decoder reads from a table word, the sequence operand empty. The table numbers the bits of the
48-bit request word as R60 does, so no layout stands between the two. -/
def decodeTableWord (nbits w : Nat) : Option Instr :=
  match decode (.ofWord (BitVec.ofNat 48 (w % 2 ^ nbits)) []) with
  | .instr i => some i
  | .illegal _ => none

end Sys2Proof
end

