-- ==== Sys2Proof/WellFormed.lean ====
section
/-! DEFINITION. The one duty of a host that issues a command: `len(S) ≤ MAX_SEQ` (`10_state.md` R22,
`70_reset_and_hazards.md` R233 and R236). The widths of the other operands are their types. -/

namespace Sys2Proof

/-- A request the host may present (R22, R236). -/
def Request.wellFormed (c : Config) (q : Request) : Bool := c.fits q.s.length

/-- A command the host may present (R22, R233). -/
def Instr.wellFormed (c : Config) (i : Instr) : Bool := c.fits i.seqOperand.length

end Sys2Proof
end

