-- ==== Sys2Proof/Machine/Port.lean ====
section
/-! DEFINITION. The request port, step by step (`20_memory.md` R54, `70_reset_and_hazards.md` R230, R232, R236, R237):
what the block does by itself, and what the host does to it. -/

namespace Sys2Proof.Machine

/-- The request in progress is completed: its capacity is checked, then its opcode, and then the command runs (R207). -/
def State.serve (q : Request) (s : State) : Host.Outcome State Fault Refusal :=
  if q.wellFormed Config.built then
    match decode q with
    | .instr i => exec i s
    | .illegal _ => s.answer (.next (.error .eIllop))
  else .refused .seqTooLong

/-- What the block does in one step by itself: it completes the request in progress; or, holding no response, it accepts
the oldest waiting request; or it waits (R54, R236). -/
def State.blockTurn (s : State) : Host.Outcome State Fault Refusal :=
  match s.request, s.response, s.waiting with
  | some q, _, _ => s.serve q
  | none, none, q :: rest => .next (s.accept q rest)
  | none, none, [] => .next s
  | none, some _, _ => .next s

/-- The host reads the response port: it takes the response held, or waits for one to come while the block goes on. Where
none is to come there is nothing to read (R231, R236, I9). -/
def State.hostCollect (rest : List HostAct) (s : State) : Host.Outcome State Fault Refusal :=
  match s.request, s.response, s.waiting with
  | some _, _, _ => s.blockTurn
  | none, some r, _ => .next ((s.deliver r).setIncoming rest)
  | none, none, _ :: _ => s.blockTurn
  | none, none, [] => .refused .noResponse

/-- The host does nothing more: the block goes on by itself, and with a response held it waits for ever (R236). -/
def State.hostSilent (s : State) : Host.Outcome State Fault Refusal :=
  match s.request, s.response with
  | none, some _ => .fault .responseHeld
  | _, _ => s.blockTurn

/-- One step of the port: one act of the host, or one step of the block, or both (R236). -/
def State.portStep (s : State) : Host.Outcome State Fault Refusal :=
  match s.incoming with
  | [] => s.hostSilent
  | .reset :: rest => .next (s.cancel.setIncoming rest)
  | .command q :: rest => .next ((s.present q).setIncoming rest)
  | .collect :: rest => s.hostCollect rest
  | .wait :: rest => (s.setIncoming rest).blockTurn

/-- A request placed as the one in progress, with nothing at the port before it: no response held, and no act of the host
that would come first. -/
def State.placeRequest (q : Request) (s : State) : State :=
  { s with request := some q, response := none, incoming := [] }

end Sys2Proof.Machine
end

