-- ==== Sys2Proof/Machine/Step.lean ====
section
/-! DEFINITION. The step of the machine, and the placing of a request where the next step runs it. -/

namespace Sys2Proof.Machine

/-- One step (`70_reset_and_hazards.md` R236). -/
def step : State → Host.Outcome State Fault Refusal := State.portStep

/-- The request word `w` with an empty `S`, placed as the request in progress. A host's command reaches the same place in
two steps, presented and accepted (log entry 9). -/
def State.withFetchWord (s : State) (nbits w : Nat) : State :=
  s.placeRequest (.ofWord (BitVec.ofNat 48 (w % 2 ^ nbits)) [])

end Sys2Proof.Machine
end

