-- ==== Sys2Proof/Machine/Assembler.lean ====
section
/-! DEFINITION. The assembler syntax (`30_encoding.md` R69): one command a line, a mnemonic and its operands. A line that
does not have the command's operand form, or holds a literal outside its range, is an assembly error (`none`).

A line is a list of characters. Blanks may stand between tokens, and `_` may stand between two binary digits (R9); the
spec says no more of the spacing (log entry 10). The last part of the file writes the lines that R69 describes. -/

namespace Sys2Proof.Machine

/-- A token of a line. -/
inductive Token where
  | word (l : List Char)
  | comma
  | openList
  | closeList
  | text (l : List Char)
  deriving DecidableEq, Repr

/-- The pending word, if there is one, before the tokens after it. The word is held last character first. -/
def endWord (w : List Char) (ts : List Token) : List Token := if w.isEmpty then ts else .word w.reverse :: ts

/-- The tokens of a line, with the word read so far and, inside a quoted string, its text so far (each last character
first). A string must be closed. -/
def tokens : List Char → List Char → Option (List Char) → Option (List Token)
  | [], w, none => some (endWord w [])
  | [], _, some _ => none
  | c :: cs, w, some t =>
    if c = '"' then (tokens cs [] none).map (.text t.reverse :: ·) else tokens cs w (some (c :: t))
  | c :: cs, w, none =>
    if c = ' ' then (tokens cs [] none).map (endWord w)
    else if c = ',' then (tokens cs [] none).map (endWord w <| .comma :: ·)
    else if c = '[' then (tokens cs [] none).map (endWord w <| .openList :: ·)
    else if c = ']' then (tokens cs [] none).map (endWord w <| .closeList :: ·)
    else if c = '"' then (tokens cs [] (some [])).map (endWord w)
    else tokens cs (c :: w) none

/-- The value of a digit in a base of at most 16. DESIGN CHOICE (log entry 10): hex digits are read in either case. -/
def digitValue (base : Nat) (c : Char) : Option Nat :=
  let v :=
    if '0' ≤ c ∧ c ≤ '9' then c.toNat - 48
    else if 'A' ≤ c ∧ c ≤ 'F' then c.toNat - 55
    else if 'a' ≤ c ∧ c ≤ 'f' then c.toNat - 87
    else 16
  if v < base then some v else none

/-- The digits of a numeral after the value read so far; `afterDigit` says that the character before was a digit. -/
def digits (base : Nat) : List Char → Nat → Bool → Option Nat
  | [], v, afterDigit => if afterDigit then some v else none
  | c :: cs, v, afterDigit =>
    if c = '_' ∧ base = 2 ∧ afterDigit then digits base cs v false
    else (digitValue base c).bind fun d => digits base cs (base * v + d) true

/-- A numeral: decimal with an optional sign, hexadecimal with `0x`, or binary with `0b` (R69). DESIGN CHOICE (log entry
10): the sign is `-` alone, before decimal digits alone; a leading `+` is an error, and `-0` is the literal 0 in every
operand. R69 says `signed decimal` and is silent on both. -/
def numeral : List Char → Option Int
  | '0' :: 'x' :: cs => (digits 16 cs 0 false).map Int.ofNat
  | '0' :: 'b' :: cs => (digits 2 cs 0 false).map Int.ofNat
  | '-' :: cs => (digits 10 cs 0 false).map fun n : Nat => -(n : Int)
  | cs => (digits 10 cs 0 false).map Int.ofNat

/-- A literal from `lo` to `hi` as its two's-complement pattern; outside the range it is an error, not truncated (R69). -/
def literal (n : Nat) (lo hi : Int) (w : List Char) : Option (BitVec n) :=
  (numeral w).bind fun v => if lo ≤ v ∧ v ≤ hi then some (BitVec.ofInt n v) else none

/-- A byte literal, 0 to 255 (R69). -/
def byteLiteral (w : List Char) : Option Byte := literal 8 0 255 w

/-- The codes of a quoted ASCII string (R69, `00_scope.md` R12). -/
def textCodes (l : List Char) : Option (List Byte) :=
  if l.all fun c => decide (c.toNat < 128) then some (l.map fun c => BitVec.ofNat 8 c.toNat) else none

/-- The items of a bracketed list, the first of them next. -/
def listItems : List Token → Option (List Byte)
  | [.word w, .closeList] => (byteLiteral w).map ([·])
  | .word w :: .comma :: rest => (byteLiteral w).bind fun b => (listItems rest).map (b :: ·)
  | _ => none

/-- A bracketed list of byte literals, possibly empty (R69). -/
def byteList : List Token → Option (List Byte)
  | [.openList, .closeList] => some []
  | .openList :: rest => listItems rest
  | _ => none

/-- A quoted string or a bracketed list of codes (R69). -/
def codeString : List Token → Option (List Byte)
  | [.text l] => textCodes l
  | ts => byteList ts

/-- One literal in the range from `lo` to `hi`. -/
def oneLiteral (n : Nat) (lo hi : Int) : List Token → Option (BitVec n)
  | [.word w] => literal n lo hi w
  | _ => none

/-- Two byte literals. -/
def twoBytes (mk : Byte → Byte → Instr) : List Token → Option Instr
  | [.word x, .comma, .word y] => (byteLiteral x).bind fun b => (byteLiteral y).map (mk b)
  | _ => none

/-- The command that a mnemonic and its operand tokens make (R69). Mnemonics are case-insensitive. DESIGN CHOICE (log entry
10): MFRNAME16 and MFRNAME32 take a literal of their unsigned range in plain decimal as well as in the other bases. -/
def assembleCommand (mnemonic : List Char) (ts : List Token) : Option Instr :=
  let m := mnemonic.map Char.toUpper
  if m = "HINIB".toList then (oneLiteral 8 0 255 ts).map .hinib
  else if m = "LONIB".toList then (oneLiteral 8 0 255 ts).map .lonib
  else if m = "GETBIT".toList then twoBytes .getbit ts
  else if m = "SETBIT".toList then twoBytes .setbit ts
  else if m = "MASK".toList then twoBytes .mask ts
  else if m = "OR".toList then twoBytes .or ts
  else if m = "SHR".toList then twoBytes .shr ts
  else if m = "SHL".toList then twoBytes .shl ts
  else if m = "HEXB".toList then (oneLiteral 8 0 255 ts).map .hexb
  else if m = "HEXENC".toList then (byteList ts).map .hexenc
  else if m = "HEXDEC".toList then (codeString ts).map .hexdec
  else if m = "MFRPACK".toList then (codeString ts).map .mfrpack
  else if m = "MFRNAME16".toList then (oneLiteral 16 (-32768) 65535 ts).map .mfrname16
  else if m = "MFRNAME32".toList then (oneLiteral 32 (-2147483648) 4294967295 ts).map .mfrname32
  else if m = "EXTBIT".toList then (oneLiteral 8 0 255 ts).map .extbit
  else none

/-- The request that a line assembles to: its command, every ignored field zero (R65, R69). -/
def assemble (line : List Char) : Option Request :=
  match tokens line [] none with
  | some (.word m :: ts) => (assembleCommand m ts).map encode
  | _ => none

/-! The lines of R69, written out. -/

/-- The base a literal is written in (R9, R69). -/
inductive Radix where
  | dec
  | hex
  | bin
  deriving DecidableEq, Repr

/-- A literal in any of the three bases of R69, a negative one as a signed decimal. Its hex digits are lowercase, which the
assembler reads by the model's choice (log entry 10). -/
def literalText (r : Radix) : Int → List Char
  | .ofNat n =>
    match r with
    | .dec => Nat.toDigits 10 n
    | .hex => '0' :: 'x' :: Nat.toDigits 16 n
    | .bin => '0' :: 'b' :: Nat.toDigits 2 n
  | .negSucc n => '-' :: Nat.toDigits 10 (n + 1)

/-- Literals with a comma and a blank between two of them. -/
def itemsText (r : Radix) : List Int → List Char
  | [] => []
  | [v] => literalText r v
  | v :: vs => literalText r v ++ ',' :: ' ' :: itemsText r vs

/-- A bracketed list of literals (R69). -/
def listText (r : Radix) (vs : List Int) : List Char := '[' :: itemsText r vs ++ [']']

/-- A double-quoted string (R69). -/
def quotedText (l : List Char) : List Char := '"' :: l ++ ['"']

/-- A line: a mnemonic, a blank and the operands (R69). -/
def lineText (mnemonic operands : List Char) : List Char := mnemonic ++ ' ' :: operands

end Sys2Proof.Machine
end

