-- ==== Sys2Proof/Machine/Transact.lean ====
section
/-! DEFINITION. The spec's own `exec : Config → Request → Outcome` (`10_state.md` R20), for every configuration, under the
name `transact`: the machine's `exec` and `step` are held against it. -/

namespace Sys2Proof.Machine

/-- The outcome of a command under a configuration (R27). -/
def reply (c : Config) (i : Instr) : Reply :=
  match i with
  | .hinib b => hinibReply b
  | .lonib b => lonibReply b
  | .getbit b p => getbitReply c b p
  | .setbit b p => setbitReply c b p
  | .mask b m => maskReply b m
  | .or b o => orReply b o
  | .shr b n => shrReply b n
  | .shl b n => shlReply b n
  | .hexb b => hexbReply b
  | .hexenc l => hexencReply c l
  | .hexdec l => hexdecReply l
  | .mfrpack l => mfrpackReply l
  | .mfrname16 x => mfrname16Reply c x
  | .mfrname32 w => mfrname32Reply c w
  | .extbit b => extbitReply b

/-- The block's whole behaviour (R20). The checks come in the order of R207: the capacity of `S`, then the opcode, then
those of the command itself. -/
def transact (c : Config) (q : Request) : Reply :=
  if q.wellFormed c then
    match decode q with
    | .instr i => reply c i
    | .illegal _ => .next (.error .eIllop)
  else .refused .seqTooLong

end Sys2Proof.Machine
end

