-- ==== Sys2Proof/Safety.lean ====
section
/-! DEFINITION. What claims speak of: the form of a response (`10_state.md` R25, R26), the invariant of the port
(`20_memory.md` R54), a request that gets a response (`60_exceptions.md` R208), the record of an exchange, and a host that
issues one request at a time (`70_reset_and_hazards.md` R236). -/

namespace Sys2Proof.Machine

/-- A response in the one form R23, R25 and R26 allow: an error carries nothing; a sequence result leaves `R` zero and
fits; no scalar result is wider than 16 bits. -/
def Response.wf (c : Config) (r : Response) : Prop :=
  (r.status ≠ .ok → r.r = 0 ∧ r.t = []) ∧ (r.t ≠ [] → r.r = 0) ∧ c.fits r.t.length = true ∧ r.r.toNat < 65536

/-- Never a request in progress while a response is held (R54). -/
def State.oneInHand (s : State) : Prop := s.request = none ∨ s.response = none

/-- The invariant of the port: one exchange in hand, and every response held or delivered well formed. -/
def State.Inv (c : Config) (s : State) : Prop :=
  s.oneInHand ∧ (∀ r, s.response = some r → r.wf c) ∧ ∀ r ∈ s.delivered, r.wf c

/-- The block is ready for a request: nothing is in progress, held or waiting (R230, R237). -/
def State.idle (s : State) : Prop := s.request = none ∧ s.response = none ∧ s.waiting = []

/-- The request gets a response: its outcome is neither `Undefined` nor `Refused` (R208). -/
def Request.answered (c : Config) (q : Request) : Prop := ∃ r, transact c q = .next r

/-- The requests the host still has to present. -/
def commandsOf : List HostAct → List Request
  | [] => []
  | .command q :: rest => q :: commandsOf rest
  | .collect :: rest => commandsOf rest
  | .reset :: rest => commandsOf rest
  | .wait :: rest => commandsOf rest

/-- The outcomes of an exchange in request order: those delivered, the one held, and those R20 gives the requests in
progress, waiting and still to come. -/
def State.transcript (c : Config) (s : State) : List Reply :=
  (s.delivered ++ s.response.toList).map .next ++
    (s.request.toList ++ s.waiting ++ commandsOf s.incoming).map (transact c)

/-- A host that issues one request at a time and collects its response before the next (R236). -/
def session (qs : List Request) : List HostAct := qs.flatMap fun q => [.command q, .collect]

end Sys2Proof.Machine
end

