-- ==== Sys2Proof/Certificates/Slice0/Obligations.lean ====
section
/-! DEFINITION. The statements for the provers. Statements about a command's value under every configuration are about
`reply` or `transact` (the spec's `exec`, `10_state.md` R20); `StepRefinesTransact` carries them to the machine's step. -/

open Sys2Proof Sys2Proof.Machine

/-! ## Encoding -/

/-- Decoding what the encoder writes gives the command back, every operand at every value (R62, R64, R69). -/
def Obligations.DecodeOfEncode : Prop := ∀ i : Instr, decode (encode i) = .instr i

/-- The encoder of a decoded command drives the request's opcode and every bit of it that the command reads. -/
def Obligations.EncodeOfDecodeKeepsReadBits : Prop :=
  ∀ (q : Request) (i : Instr), decode q = .instr i →
    (encode i).opc = q.opc ∧ (encode i).word &&& readMask q.opc = q.word &&& readMask q.opc ∧
      (readsSeq q.opc = true → (encode i).s = q.s)

/-- R60: `RQ[47:16] = A`, `RQ[15:8] = B`, `RQ[7:0] = OPC`, and a word and its sequence operand make a request back. -/
def Obligations.RequestWordFields : Prop :=
  (∀ q : Request, q.word.extractLsb' 16 32 = q.a ∧ q.word.extractLsb' 8 8 = q.b ∧ q.word.extractLsb' 0 8 = q.opc) ∧
  (∀ q : Request, Request.ofWord q.word q.s = q) ∧
  ∀ (w : RequestWord) (l : List Byte), (Request.ofWord w l).word = w ∧ (Request.ofWord w l).s = l

/-- R65: two requests of one opcode that agree in the bits and the sequence the command reads have one outcome, provided
the capacity of `S` treats them alike, under every configuration; and the encoder writes what is not read as zero. -/
def Obligations.UnreadFieldsIgnored : Prop :=
  (∀ (c : Config) (w w' : RequestWord) (l l' : List Byte),
    (Request.ofWord w l).opc = (Request.ofWord w' l').opc →
    w &&& readMask (Request.ofWord w l).opc = w' &&& readMask (Request.ofWord w l).opc →
    (readsSeq (Request.ofWord w l).opc = true → l = l') → c.fits l.length = c.fits l'.length →
      transact c (.ofWord w l) = transact c (.ofWord w' l')) ∧
  ∀ i : Instr, (encode i).word &&& ~~~(readMask i.opcode) = 0 ∧ (readsSeq i.opcode = false → (encode i).s = [])

/-- R63, R67: the decoder finds no command exactly for the 241 unassigned opcodes. -/
def Obligations.IllegalOpcodesExactly : Prop :=
  ∀ q : Request, decode q = .illegal q.opc ↔
    (q.opc.toNat ≤ 0x0F ∨ (0x12 ≤ q.opc.toNat ∧ q.opc.toNat ≤ 0x1F) ∨ (0x26 ≤ q.opc.toNat ∧ q.opc.toNat ≤ 0x2F) ∨
      (0x33 ≤ q.opc.toNat ∧ q.opc.toNat ≤ 0x3F) ∨ 0x44 ≤ q.opc.toNat)

/-- Request words written out from R60 and R62 decode to the commands they stand for, one or more of each unit. -/
def Obligations.WrittenWordsDecode : Prop :=
  decodeTableWord 48 0x0000005A0010 = some (.hinib 0x5A) ∧
  decodeTableWord 48 0x0000005A0721 = some (.setbit 0x5A 7) ∧
  decodeTableWord 48 0x00000081C825 = some (.shl 0x81 200) ∧
  decodeTableWord 48 0x0000000A0030 = some (.hexb 0x0A) ∧
  decodeTableWord 48 0x000015960041 = some (.mfrname16 0x1596) ∧
  decodeTableWord 48 0xFFFF15960042 = some (.mfrname32 0xFFFF1596) ∧
  decodeTableWord 48 0x0000005A0112 = none

/-- R69: what a line assembles to, form by form. A line that assembles is the encoding of a command. A mnemonic, its letters
in either case, with its literals in decimal, hexadecimal, binary or signed decimal, or its list or string, assembles to
the request R69 sets, and to nothing when a literal lies outside its range or a string is not ASCII. The model's choices in
this (log entry 10): the line has one blank after the mnemonic, and a comma and a blank between literals; hex digits are
read in lowercase, as `literalText` writes them; MFRNAME16 and MFRNAME32 take their unsigned range in plain decimal too
(`MFRNAME16 40000` assembles, where R69 gives the signed decimal only to 32767). -/
def Obligations.AssembledLinesDecode : Prop :=
  (∀ (line : List Char) (q : Request), assemble line = some q → ∃ i, decode q = .instr i ∧ q = encode i) ∧
  (∀ (r : Radix) (m : List Char) (o : Byte) (v : Int),
    (m.map Char.toUpper, o) ∈ [("HINIB".toList, 0x10#8), ("LONIB".toList, 0x11#8), ("HEXB".toList, 0x30#8),
      ("EXTBIT".toList, 0x43#8)] →
    assemble (lineText m (literalText r v)) =
      if 0 ≤ v ∧ v ≤ 255 then some ⟨o, BitVec.ofInt 32 v, 0, []⟩ else none) ∧
  (∀ (r : Radix) (m : List Char) (o : Byte) (v w : Int),
    (m.map Char.toUpper, o) ∈ [("GETBIT".toList, 0x20#8), ("SETBIT".toList, 0x21#8), ("MASK".toList, 0x22#8),
      ("OR".toList, 0x23#8), ("SHR".toList, 0x24#8), ("SHL".toList, 0x25#8)] →
    assemble (lineText m (itemsText r [v, w])) =
      if (0 ≤ v ∧ v ≤ 255) ∧ 0 ≤ w ∧ w ≤ 255 then some ⟨o, BitVec.ofInt 32 v, BitVec.ofInt 8 w, []⟩ else none) ∧
  (∀ (r : Radix) (m : List Char) (o : Byte) (vs : List Int),
    (m.map Char.toUpper, o) ∈ [("HEXENC".toList, 0x31#8), ("HEXDEC".toList, 0x32#8), ("MFRPACK".toList, 0x40#8)] →
    assemble (lineText m (listText r vs)) =
      if ∀ v ∈ vs, 0 ≤ v ∧ v ≤ 255 then some ⟨o, 0, 0, vs.map (BitVec.ofInt 8)⟩ else none) ∧
  (∀ (m : List Char) (o : Byte) (l : List Char), '"' ∉ l →
    (m.map Char.toUpper, o) ∈ [("HEXDEC".toList, 0x32#8), ("MFRPACK".toList, 0x40#8)] →
    assemble (lineText m (quotedText l)) =
      if ∀ x ∈ l, x.toNat < 128 then some ⟨o, 0, 0, l.map fun x => BitVec.ofNat 8 x.toNat⟩ else none) ∧
  (∀ (r : Radix) (m : List Char) (v : Int), m.map Char.toUpper = "MFRNAME16".toList →
    assemble (lineText m (literalText r v)) =
      if -32768 ≤ v ∧ v ≤ 65535 then some ⟨0x41, (BitVec.ofInt 16 v).setWidth 32, 0, []⟩ else none) ∧
  ∀ (r : Radix) (m : List Char) (v : Int), m.map Char.toUpper = "MFRNAME32".toList →
    assemble (lineText m (literalText r v)) =
      if -2147483648 ≤ v ∧ v ≤ 4294967295 then some ⟨0x42, BitVec.ofInt 32 v, 0, []⟩ else none

/-! ## The step and the port -/

/-- A step with a request in progress whose word decodes to a command is `exec` of that command: at the state itself when
the host is silent or waits to collect, and at the state less the host's pause when the host pauses. That collecting waits
for a response to come and that the host may pause are the model's choices (log entry 5), and that an accepted request is
completed in one step is the model's choice (log entry 8); R20 and R207 say nothing of them. -/
def Obligations.StepRunsDecodedInstr : Prop :=
  ∀ (s : State) (q : Request) (i : Instr), s.request = some q → q.wellFormed Config.built = true →
    decode q = .instr i →
      (s.incoming = [] → step s = exec i s) ∧
      (∀ rest, s.incoming = .collect :: rest → step s = exec i s) ∧
      ∀ rest, s.incoming = .wait :: rest → step s = exec i { s with incoming := rest }

/-- R20 at the machine: a step with a request in progress, and no reset or further command first, is the outcome of R20 for
that request, held as the response; nothing else of the state is read or changed but a pause of the host, which is used up.
That the block goes on while the host waits to collect or pauses is the model's choice (log entry 5), and so is completion
in one step (log entry 8); R20 and R27 say nothing of them. -/
def Obligations.StepRefinesTransact : Prop :=
  ∀ (s : State) (q : Request), s.request = some q →
    ((s.incoming = [] ∨ ∃ rest, s.incoming = .collect :: rest) →
      step s = match transact Config.built q with
        | .next r => .next { s with request := none, response := some r }
        | .fault f => .fault f
        | .refused f => .refused f) ∧
    ∀ rest, s.incoming = .wait :: rest →
      step s = match transact Config.built q with
        | .next r => .next { s with request := none, response := some r, incoming := rest }
        | .fault f => .fault f
        | .refused f => .refused f

/-- R28: the response to a request depends on nothing but the request, whatever else the two states hold, and the command
writes nothing but its response. That the request is completed after the one step is the model's choice (log entry 8). -/
def Obligations.CommandsAreIndependent : Prop :=
  ∀ (s₁ s₂ s₁' : State) (q : Request), s₁.request = some q → s₂.request = some q → s₁.incoming = [] →
    s₂.incoming = [] → step s₁ = .next s₁' →
      s₁' = { s₁ with request := none, response := s₁'.response } ∧
      step s₂ = .next { s₂ with request := none, response := s₁'.response }

/-- R230: after reset no request is in progress, no response is held and nothing is pending. -/
def Obligations.ResetHoldsNothing : Prop :=
  State.reset.request = none ∧ State.reset.response = none ∧ State.reset.waiting = [] ∧ State.reset.idle

/-- R232: a reset by the host ends every request not yet answered with no response; the host keeps what it has collected
(the model's choice, log entries 4 and 5, is that waiting requests end too). -/
def Obligations.HostResetCancels : Prop :=
  ∀ (s : State) (rest : List HostAct), s.incoming = .reset :: rest →
    step s = .next ⟨none, none, [], rest, s.delivered⟩

/-- R231, I9: reading the response port with no response held and none to come has no meaning (log entry 6). -/
def Obligations.EarlyReadRefused : Prop :=
  ∀ (s : State) (rest : List HostAct), s.idle → s.incoming = .collect :: rest → step s = .refused .noResponse

/-- R236: with a response held, a pausing host leaves the block waiting, and with nothing more from the host there is no
further step. The pause is the model's (log entry 5). -/
def Obligations.HeldResponseWaits : Prop :=
  ∀ (s : State) (r : Response), s.request = none → s.response = some r →
    (s.incoming = [] → step s = .fault .responseHeld) ∧
    ∀ rest, s.incoming = .wait :: rest → step s = .next { s with incoming := rest }

/-- R237: collecting delivers the held response, and the block holds nothing again. The list of what was delivered is the
model's (log entry 5). -/
def Obligations.CollectDelivers : Prop :=
  ∀ (s : State) (r : Response) (rest : List HostAct), s.request = none → s.response = some r →
    s.incoming = .collect :: rest →
      step s = .next { s with response := none, incoming := rest, delivered := s.delivered ++ [r] }

/-- R54, R236: a request presented at any time waits behind those before it and disturbs nothing in hand. That any number of
requests may wait, with none lost, is the model's choice (log entry 15), and so is the step that presenting takes (log
entry 8). -/
def Obligations.PresentedRequestWaits : Prop :=
  ∀ (s : State) (q : Request) (rest : List HostAct), s.incoming = .command q :: rest →
    step s = .next { s with waiting := s.waiting ++ [q], incoming := rest }

/-- R54, R236: a request comes to be in progress only with nothing in progress and no response held. That it is then the
oldest of the waiting ones, the rest being kept, is the model's choice (log entry 15), and so is that it waited before the
step, presenting and accepting being separate steps (log entry 8). -/
def Obligations.AcceptOnlyWhenIdle : Prop :=
  ∀ (s s' : State) (q : Request), step s = .next s' → s'.request = some q →
    s.request = some q ∨
      (s.request = none ∧ s.response = none ∧ s.waiting = q :: s'.waiting ∧ s'.response = none)

/-- The invariant of the port holds after reset. -/
def Obligations.PortInvariantAtReset : Prop := State.reset.Inv Config.built

/-- Every step keeps the invariant of the port: one exchange in hand (R54), and every response held or delivered in the one
form of R23, R25 and R26. -/
def Obligations.StepKeepsPortInvariant : Prop :=
  ∀ s s' : State, s.Inv Config.built → step s = .next s' → s'.Inv Config.built

/-- R54, R28: every step but a reset keeps the record of the exchange: the outcomes delivered, held, in progress, waiting
and to come, in request order. So responses appear in the order of their requests, none lost, doubled or changed. That
requests presented early are kept, however many, is the model's choice (log entry 15). -/
def Obligations.StepKeepsTranscript : Prop :=
  ∀ s s' : State, s.oneInHand → (∀ rest, s.incoming ≠ .reset :: rest) → step s = .next s' →
    s'.transcript Config.built = s.transcript Config.built

/-- R54, R237, R241: from any ready state, a host that issues requests one at a time, each with a response, has collected
exactly their responses, in order, after four steps a request, and the block is ready again. Four steps (present, accept,
complete, collect) are the model's choice (log entry 8), and so is that collecting waits for the response to come (log
entry 5). -/
def Obligations.SessionDeliversInOrder : Prop :=
  ∀ (qs : List Request) (rs : List Response) (s : State) (rest : List HostAct), s.idle →
    s.incoming = session qs ++ rest → qs.map (transact Config.built) = rs.map .next →
      core.run (4 * qs.length) s = .next { s with incoming := rest, delivered := s.delivered ++ rs }

/-! ## Checks and errors -/

/-- R207: the checks in their order, for every configuration and request. -/
def Obligations.CheckOrder : Prop :=
  ∀ (c : Config) (q : Request),
    if c.fits q.s.length = false ∨ (q.opc = 0x31#8 ∧ c.fits (2 * q.s.length) = false) then
      transact c q = .refused .seqTooLong
    else if decode q = .illegal q.opc then transact c q = .next ⟨.eIllop, 0, []⟩
    else if q.opc = 0x32#8 ∧ q.s.length % 2 = 1 then transact c q = .next ⟨.eHexlen, 0, []⟩
    else if q.opc = 0x40#8 ∧ q.s.length ≠ 3 then transact c q = .next ⟨.eMfrlen, 0, []⟩
    else if q.opc = 0x32#8 ∧ ∃ x ∈ q.s, isHex x = false then transact c q = .fault .hexBadChar
    else ∃ r, transact c q = .next r ∧ r.status = .ok

/-- R22, R25: `MAX_SEQ` is at least 3, a longer `S` is refused whatever the opcode, and HEXENC is refused where twice its
length is longer. -/
def Obligations.CapacityRefused : Prop :=
  ∀ (c : Config) (m : Nat), c.maxSeq = some m →
    3 ≤ m ∧ (∀ q : Request, m < q.s.length → transact c q = .refused .seqTooLong) ∧
      ∀ l : List Byte, m < 2 * l.length → reply c (.hexenc l) = .refused .seqTooLong

/-- R201: `E_HEXLEN` is raised by HEXDEC alone, exactly for an odd length within the capacity. -/
def Obligations.HexLengthErrorExactly : Prop :=
  ∀ (c : Config) (q : Request), (∃ r, transact c q = .next r ∧ r.status = .eHexlen) ↔
    (c.fits q.s.length = true ∧ q.opc = 0x32#8 ∧ q.s.length % 2 = 1)

/-- R204: `E_MFRLEN` is raised by MFRPACK alone, exactly for a length other than 3 within the capacity. -/
def Obligations.MfrLengthErrorExactly : Prop :=
  ∀ (c : Config) (q : Request), (∃ r, transact c q = .next r ∧ r.status = .eMfrlen) ↔
    (c.fits q.s.length = true ∧ q.opc = 0x40#8 ∧ q.s.length ≠ 3)

/-- R202: `E_ILLOP` is raised exactly for an unassigned opcode, with `S` within the capacity. -/
def Obligations.IllegalOpcodeErrorExactly : Prop :=
  ∀ (c : Config) (q : Request), (∃ r, transact c q = .next r ∧ r.status = .eIllop) ↔
    (c.fits q.s.length = true ∧
      q.opc ∉ [0x10#8, 0x11#8, 0x20#8, 0x21#8, 0x22#8, 0x23#8, 0x24#8, 0x25#8, 0x30#8, 0x31#8, 0x32#8, 0x40#8, 0x41#8,
        0x42#8, 0x43#8])

/-- R203: an error response carries its status and nothing else, and no other part of the state changes. The second clause
says so of the machine's step; that the step after acceptance completes the request is the model's choice (log entry 8). -/
def Obligations.ErrorsCarryNothing : Prop :=
  (∀ (c : Config) (q : Request) (r : Response), transact c q = .next r → r.status ≠ .ok → r = ⟨r.status, 0, []⟩) ∧
  ∀ (s : State) (q : Request) (r : Response), s.request = some q → s.incoming = [] →
    transact Config.built q = .next r → r.status ≠ .ok →
      step s = .next { s with request := none, response := some ⟨r.status, 0, []⟩ }

/-- R206: every command but HEXDEC and MFRPACK completes with `OK` for every operand value, HEXENC within its capacity. -/
def Obligations.TotalCommandsComplete : Prop :=
  ∀ (c : Config) (i : Instr), (∀ l, i ≠ .hexdec l) → (∀ l, i ≠ .mfrpack l) →
    (∀ l, i = .hexenc l → c.fits (2 * l.length) = true) → ∃ r, reply c i = .next r ∧ r.status = .ok

/-- R24: the four status codes. -/
def Obligations.StatusCodes : Prop :=
  Status.ok.code = 0 ∧ Status.eHexlen.code = 1 ∧ Status.eMfrlen.code = 2 ∧ Status.eIllop.code = 3

/-! ## Nibble extractor -/

/-- R100: HINIB is decoded from opcode 0x10 and `A[7:0]`, and gives `(b >> 4) & 0x0F`, below 16. -/
def Obligations.HinibResult : Prop :=
  (∀ q : Request, q.opc = 0x10#8 → decode q = .instr (.hinib (q.a.setWidth 8))) ∧
  ∀ (b : Byte) (s : State), b.toNat / 16 < 16 ∧
    exec (.hinib b) s = .next { s with
      request := none, response := some ⟨.ok, ((b >>> 4) &&& 0x0F#8).setWidth 32, []⟩ } ∧
    exec (.hinib b) s = .next { s with request := none, response := some ⟨.ok, BitVec.ofNat 32 (b.toNat / 16), []⟩ }

/-- R101: LONIB is decoded from opcode 0x11 and `A[7:0]`, and gives `b & 0x0F`, below 16. -/
def Obligations.LonibResult : Prop :=
  (∀ q : Request, q.opc = 0x11#8 → decode q = .instr (.lonib (q.a.setWidth 8))) ∧
  ∀ (b : Byte) (s : State), b.toNat % 16 < 16 ∧
    exec (.lonib b) s = .next { s with request := none, response := some ⟨.ok, (b &&& 0x0F#8).setWidth 32, []⟩ } ∧
    exec (.lonib b) s = .next { s with request := none, response := some ⟨.ok, BitVec.ofNat 32 (b.toNat % 16), []⟩ }

/-- The recombination law: the nibbles of a byte make it back, in arithmetic and through SHL and OR. -/
def Obligations.NibblesRecombine : Prop :=
  ∀ (c : Config) (b : Byte), ∃ h l t : Word,
    reply c (.hinib b) = .next ⟨.ok, h, []⟩ ∧ reply c (.lonib b) = .next ⟨.ok, l, []⟩ ∧
    ((h <<< 4) ||| l) &&& 0xFF#32 = b.setWidth 32 ∧
    reply c (.shl (h.setWidth 8) 4) = .next ⟨.ok, t, []⟩ ∧
    reply c (.or (t.setWidth 8) (l.setWidth 8)) = .next ⟨.ok, b.setWidth 32, []⟩

/-! ## Bit test/set unit -/

/-- R110: GETBIT tests bit `p` for `p ≤ 7`, and gives the OPEN value of the configuration above. -/
def Obligations.GetbitResult : Prop :=
  (∀ q : Request, q.opc = 0x20#8 → decode q = .instr (.getbit (q.a.setWidth 8) q.b)) ∧
  ∀ (b p : Byte) (s : State), exec (.getbit b p) s = .next { s with
    request := none
    response := some ⟨.ok,
      if p.toNat ≤ 7 then (if b.toNat / 2 ^ p.toNat % 2 = 1 then 1 else 0)
      else (if Config.built.getBitHigh b p = true then 1 else 0), []⟩ }

/-- R111: SETBIT forces bit `p` to 1 and leaves the others for `p ≤ 7`, and gives the OPEN value above. -/
def Obligations.SetbitResult : Prop :=
  (∀ q : Request, q.opc = 0x21#8 → decode q = .instr (.setbit (q.a.setWidth 8) q.b)) ∧
  ∀ (b p : Byte) (s : State), ∃ v : Byte,
    exec (.setbit b p) s = .next { s with request := none, response := some ⟨.ok, v.setWidth 32, []⟩ } ∧
    (p.toNat ≤ 7 → v = b ||| (1#8 <<< p.toNat) ∧
      ∀ k, k < 8 → v.getLsbD k = (decide (k = p.toNat) || b.getLsbD k)) ∧
    (7 < p.toNat → v = Config.built.setBitHigh b p)

/-- R116: for a position of 8 or more GETBIT and SETBIT complete with `OK` and the value of the configuration functions,
under every configuration. -/
def Obligations.HighPositionsAreOpen : Prop :=
  ∀ (c : Config) (b p : Byte), 8 ≤ p.toNat →
    reply c (.getbit b p) = .next ⟨.ok, if c.getBitHigh b p = true then 1 else 0, []⟩ ∧
    reply c (.setbit b p) = .next ⟨.ok, (c.setBitHigh b p).setWidth 32, []⟩

/-- R112: MASK is decoded from opcode 0x22 and gives `b & m`; it is commutative. -/
def Obligations.MaskResult : Prop :=
  (∀ q : Request, q.opc = 0x22#8 → decode q = .instr (.mask (q.a.setWidth 8) q.b)) ∧
  ∀ (b m : Byte) (s : State),
    exec (.mask b m) s = .next { s with request := none, response := some ⟨.ok, (b &&& m).setWidth 32, []⟩ } ∧
    exec (.mask m b) s = exec (.mask b m) s

/-- R113: OR is decoded from opcode 0x23 and gives `b | o`, which never exceeds 8 bits. -/
def Obligations.OrResult : Prop :=
  (∀ q : Request, q.opc = 0x23#8 → decode q = .instr (.or (q.a.setWidth 8) q.b)) ∧
  ∀ (b o : Byte) (s : State), ∃ v : Word, v.toNat < 256 ∧ (∀ k, v.getLsbD k = (b.getLsbD k || o.getLsbD k)) ∧
    exec (.or b o) s = .next { s with request := none, response := some ⟨.ok, v, []⟩ }

/-- R114: SHR is the logical shift, `b / 2^n`, which is 0 for every amount of 8 or more. -/
def Obligations.ShrResult : Prop :=
  (∀ q : Request, q.opc = 0x24#8 → decode q = .instr (.shr (q.a.setWidth 8) q.b)) ∧
  ∀ (b n : Byte) (s : State),
    exec (.shr b n) s = .next { s with
      request := none, response := some ⟨.ok, BitVec.ofNat 32 (b.toNat / 2 ^ n.toNat), []⟩ } ∧
    (8 ≤ n.toNat → exec (.shr b n) s = .next { s with request := none, response := some ⟨.ok, 0, []⟩ })

/-- R115: SHL is the shift truncated to 8 bits, `b * 2^n mod 256`, which is 0 for every amount of 8 or more. -/
def Obligations.ShlResult : Prop :=
  (∀ q : Request, q.opc = 0x25#8 → decode q = .instr (.shl (q.a.setWidth 8) q.b)) ∧
  ∀ (b n : Byte) (s : State),
    exec (.shl b n) s = .next { s with
      request := none, response := some ⟨.ok, BitVec.ofNat 32 (b.toNat * 2 ^ n.toNat % 256), []⟩ } ∧
    (8 ≤ n.toNat → exec (.shl b n) s = .next { s with request := none, response := some ⟨.ok, 0, []⟩ })

/-- R118: every command of the bit unit completes with `R[31:8] = 0`, under every configuration. -/
def Obligations.BitUnitResultsAreBytes : Prop :=
  ∀ (c : Config) (i : Instr), i.unit = .bit →
    ∃ v : Word, reply c i = .next ⟨.ok, v, []⟩ ∧ v.extractLsb' 8 24 = 0

/-- The laws of SETBIT and GETBIT: a set bit reads true, and another bit reads as before. -/
def Obligations.SetThenGet : Prop :=
  ∀ (c : Config) (b p q : Byte), p.toNat ≤ 7 → q.toNat ≤ 7 → ∃ v : Byte,
    reply c (.setbit b p) = .next ⟨.ok, v.setWidth 32, []⟩ ∧ reply c (.getbit v p) = .next ⟨.ok, 1, []⟩ ∧
    (p ≠ q → reply c (.getbit v q) = reply c (.getbit b q))

/-- The laws of SHL and SHR: shifting there and back clears the bits that left, and gives 0 for an amount of 8 or more. -/
def Obligations.ShiftThereAndBack : Prop :=
  ∀ (c : Config) (b n : Byte), ∃ l r : Byte,
    reply c (.shl b n) = .next ⟨.ok, l.setWidth 32, []⟩ ∧ reply c (.shr b n) = .next ⟨.ok, r.setWidth 32, []⟩ ∧
    (n.toNat ≤ 7 →
      reply c (.shr l n) = .next ⟨.ok, (b &&& (0xFF#8 >>> n.toNat)).setWidth 32, []⟩ ∧
      reply c (.shl r n) = .next ⟨.ok, (b &&& (0xFF#8 <<< n.toNat)).setWidth 32, []⟩) ∧
    (8 ≤ n.toNat → reply c (.shr l n) = .next ⟨.ok, 0, []⟩ ∧ reply c (.shl r n) = .next ⟨.ok, 0, []⟩)

/-! ## Hex encoder/decoder -/

/-- R140, R141: the hex digit of a nibble, in the branch form and in D00's branchless form. -/
def Obligations.HexDigitForms : Prop :=
  ∀ n : Nibble,
    (hexChar n).toNat = (if n.toNat < 10 then 48 + n.toNat else 55 + n.toNat) ∧
    (hexCharBranchless n).toNat = (hexChar n).toNat

/-- R142, R143: the 22 hex codes, their values, and the value of a digit's own character. -/
def Obligations.HexAlphabet : Prop :=
  (∀ x : Byte, isHex x = true ↔
    ((0x30 ≤ x.toNat ∧ x.toNat ≤ 0x39) ∨ (0x41 ≤ x.toNat ∧ x.toNat ≤ 0x46) ∨ (0x61 ≤ x.toNat ∧ x.toNat ≤ 0x66))) ∧
  (∀ x : Byte, (up x).toNat = if 0x61 ≤ x.toNat ∧ x.toNat ≤ 0x66 then x.toNat - 0x20 else x.toNat) ∧
  (∀ x : Byte, isHex x = true →
    (hexVal x).toNat = if (up x).toNat ≤ 0x39 then (up x).toNat - 0x30 else (up x).toNat - 0x37) ∧
  ∀ n : Nibble, hexVal (hexChar n) = n.setWidth 8

/-- R145: HEXB gives two uppercase hex characters, the high nibble's first, zero-padded. -/
def Obligations.HexbResult : Prop :=
  (∀ q : Request, q.opc = 0x30#8 → decode q = .instr (.hexb (q.a.setWidth 8))) ∧
  ∀ (b : Byte) (s : State), exec (.hexb b) s = .next { s with
    request := none
    response := some ⟨.ok, 0,
      [BitVec.ofNat 8 (if b.toNat / 16 < 10 then 48 + b.toNat / 16 else 55 + b.toNat / 16),
        BitVec.ofNat 8 (if b.toNat % 16 < 10 then 48 + b.toNat % 16 else 55 + b.toNat % 16)]⟩ }

/-- R146: HEXENC gives characters `2i` and `2i+1` from the nibbles of byte `i`; within its capacity it completes, and
beyond it, under any configuration, it is refused. -/
def Obligations.HexencResult : Prop :=
  (∀ q : Request, q.opc = 0x31#8 → decode q = .instr (.hexenc q.s)) ∧
  (∀ (l : List Byte) (s : State), Config.built.fits (2 * l.length) = true → ∃ t : List Byte,
    exec (.hexenc l) s = .next { s with request := none, response := some ⟨.ok, 0, t⟩ } ∧
    t.length = 2 * l.length ∧
    ∀ (i : Nat) (x : Byte), l[i]? = some x →
      t[2 * i]? = some (hexChar (x.extractLsb' 4 4)) ∧ t[2 * i + 1]? = some (hexChar (x.extractLsb' 0 4))) ∧
  ∀ (c : Config) (l : List Byte), c.fits (2 * l.length) = false → reply c (.hexenc l) = .refused .seqTooLong

/-- R147, R148, R149: HEXDEC gives byte `i` from characters `2i` and `2i+1`; an odd length is `E_HEXLEN` whatever the
characters; an even length with a non-hex character has no meaning. -/
def Obligations.HexdecResult : Prop :=
  (∀ q : Request, q.opc = 0x32#8 → decode q = .instr (.hexdec q.s)) ∧
  (∀ (l : List Byte) (s : State), l.length % 2 = 0 → (∀ x ∈ l, isHex x = true) → ∃ t : List Byte,
    exec (.hexdec l) s = .next { s with request := none, response := some ⟨.ok, 0, t⟩ } ∧
    t.length = l.length / 2 ∧
    ∀ (i : Nat) (x y : Byte), l[2 * i]? = some x → l[2 * i + 1]? = some y →
      t[i]? = some ((hexVal x <<< 4) ||| hexVal y)) ∧
  (∀ (l : List Byte) (s : State), l.length % 2 = 1 →
    exec (.hexdec l) s = .next { s with request := none, response := some ⟨.eHexlen, 0, []⟩ }) ∧
  ∀ (l : List Byte) (s : State), l.length % 2 = 0 → (∃ x ∈ l, isHex x = false) →
    exec (.hexdec l) s = .fault .hexBadChar

/-- The round trip, bytes first: HEXDEC of what HEXENC gives is the bytes, under every configuration. -/
def Obligations.HexRoundTripBytes : Prop :=
  ∀ (c : Config) (l : List Byte), c.fits (2 * l.length) = true → ∃ t : List Byte,
    reply c (.hexenc l) = .next ⟨.ok, 0, t⟩ ∧ transact c ⟨0x32, 0, 0, t⟩ = .next ⟨.ok, 0, l⟩

/-- The round trip, string first: HEXENC of what HEXDEC gives is the string in uppercase, under every configuration. -/
def Obligations.HexRoundTripString : Prop :=
  ∀ (c : Config) (h : List Byte), c.fits h.length = true → h.length % 2 = 0 → (∀ x ∈ h, isHex x = true) →
    ∃ t : List Byte, transact c ⟨0x32, 0, 0, h⟩ = .next ⟨.ok, 0, t⟩ ∧
      transact c ⟨0x31, 0, 0, t⟩ = .next ⟨.ok, 0, h.map up⟩

/-- HEXDEC does not tell the cases of its letters apart. -/
def Obligations.HexCaseInsensitive : Prop :=
  ∀ (c : Config) (h : List Byte), h.length % 2 = 0 → (∀ x ∈ h, isHex x = true) →
    ∃ t : List Byte, reply c (.hexdec h) = .next ⟨.ok, 0, t⟩ ∧ reply c (.hexdec (h.map up)) = .next ⟨.ok, 0, t⟩

/-- HEXB and HEXENC give only the characters `'0'..'9'` and `'A'..'F'`. -/
def Obligations.HexOutputAlphabet : Prop :=
  ∀ (c : Config) (i : Instr) (r : Response), ((∃ b, i = .hexb b) ∨ ∃ l, i = .hexenc l) → reply c i = .next r →
    ∀ x ∈ r.t, (0x30 ≤ x.toNat ∧ x.toNat ≤ 0x39) ∨ (0x41 ≤ x.toNat ∧ x.toNat ≤ 0x46)

/-! ## Manufacturer code packer/unpacker -/

/-- R170, R178, R179: MFRPACK gives the weighted sum modulo 2^16 for every three codes, and `E_MFRLEN` for every other
length; the sum ranges over -67648 to 201887. -/
def Obligations.MfrpackResult : Prop :=
  (∀ q : Request, q.opc = 0x40#8 → decode q = .instr (.mfrpack q.s)) ∧
  (∀ (x y z : Byte) (s : State), ∃ v : Int,
    v = ((x.toNat : Int) - 64) * 1024 + ((y.toNat : Int) - 64) * 32 + ((z.toNat : Int) - 64) ∧
    -67648 ≤ v ∧ v ≤ 201887 ∧
    exec (.mfrpack [x, y, z]) s = .next { s with
      request := none, response := some ⟨.ok, BitVec.ofNat 32 (v % 65536).toNat, []⟩ }) ∧
  ∀ (l : List Byte) (s : State), l.length ≠ 3 →
    exec (.mfrpack l) s = .next { s with request := none, response := some ⟨.eMfrlen, 0, []⟩ }

/-- R171: MFRNAME16 gives the three offset fields of a non-negative code, each from 64 to 95, and the OPEN value of the
configuration for a negative one. -/
def Obligations.Mfrname16Result : Prop :=
  (∀ q : Request, q.opc = 0x41#8 → decode q = .instr (.mfrname16 (q.a.setWidth 16))) ∧
  ∀ (x : Code16) (s : State),
    (0 ≤ x.toInt →
      exec (.mfrname16 x) s = .next { s with
        request := none
        response := some ⟨.ok, 0, [BitVec.ofInt 8 (64 + x.toInt / 1024), BitVec.ofInt 8 (64 + x.toInt % 1024 / 32),
          BitVec.ofInt 8 (64 + x.toInt % 32)]⟩ } ∧
      x.toInt / 1024 ≤ 31 ∧ x.toInt % 1024 / 32 ≤ 31 ∧ x.toInt % 32 ≤ 31) ∧
    (x.toInt < 0 →
      exec (.mfrname16 x) s = .next { s with
        request := none
        response := some ⟨.ok, 0, [(Config.built.mfrNameNeg x).1, (Config.built.mfrNameNeg x).2.1,
          (Config.built.mfrNameNeg x).2.2]⟩ })

/-- R175, R176: MFRNAME32 completes with three codes, those of MFRNAME16 on the two's-complement truncation of `w`. -/
def Obligations.Mfrname32Result : Prop :=
  (∀ q : Request, q.opc = 0x42#8 → decode q = .instr (.mfrname32 q.a)) ∧
  ∀ (w : Word) (s : State), ∃ x y z : Byte,
    exec (.mfrname32 w) s = .next { s with request := none, response := some ⟨.ok, 0, [x, y, z]⟩ } ∧
    exec (.mfrname16 (BitVec.ofInt 16 w.toInt)) s = exec (.mfrname32 w) s ∧
    (BitVec.ofInt 16 w.toInt).toNat = (w.toInt % 65536).toNat

/-- R177: MFRNAME16 and MFRNAME32 on a negative code complete with `OK`, `R = 0` and the three codes of the configuration
function, under every configuration. -/
def Obligations.NegativeCodesAreOpen : Prop :=
  ∀ (c : Config) (x : Code16) (w : Word), x.toInt < 0 → w.setWidth 16 = x →
    reply c (.mfrname16 x) = .next ⟨.ok, 0, [(c.mfrNameNeg x).1, (c.mfrNameNeg x).2.1, (c.mfrNameNeg x).2.2]⟩ ∧
    reply c (.mfrname32 w) = reply c (.mfrname16 x)

/-- The bit-field view of the unpack: fields `x[14:10]`, `x[9:5]`, `x[4:0]`. -/
def Obligations.UnpackBitFields : Prop :=
  ∀ (c : Config) (x : Code16), x.getLsbD 15 = false →
    reply c (.mfrname16 x) = .next ⟨.ok, 0, [64#8 + (x.extractLsb' 10 5).setWidth 8,
      64#8 + (x.extractLsb' 5 5).setWidth 8, 64#8 + (x.extractLsb' 0 5).setWidth 8]⟩

/-- The layout of a valid code: three 5-bit fields, from 0x0421 to 0x6B5A. -/
def Obligations.PackBitFields : Prop :=
  ∀ (c : Config) (x y z : Byte), (∀ l ∈ [x, y, z], 65 ≤ l.toNat ∧ l.toNat ≤ 90) → ∃ v : Word,
    reply c (.mfrpack [x, y, z]) = .next ⟨.ok, v, []⟩ ∧
    (v.extractLsb' 10 5).toNat = x.toNat - 64 ∧ (v.extractLsb' 5 5).toNat = y.toNat - 64 ∧
    (v.extractLsb' 0 5).toNat = z.toNat - 64 ∧ v.extractLsb' 15 17 = 0 ∧ 0x0421 ≤ v.toNat ∧ v.toNat ≤ 0x6B5A

/-- The manufacturer round trip, for every three codes from 64 to 95, the valid ones `'A'..'Z'` among them. -/
def Obligations.MfrRoundTrip : Prop :=
  ∀ (c : Config) (x y z : Byte), (∀ l ∈ [x, y, z], 64 ≤ l.toNat ∧ l.toNat ≤ 95) → ∃ v : Word,
    reply c (.mfrpack [x, y, z]) = .next ⟨.ok, v, []⟩ ∧
    reply c (.mfrname16 (v.setWidth 16)) = .next ⟨.ok, 0, [x, y, z]⟩

/-- R180: EXTBIT is decoded from opcode 0x43 and `A[7:0]`, and is true exactly when bit 7 is set. -/
def Obligations.ExtbitResult : Prop :=
  (∀ q : Request, q.opc = 0x43#8 → decode q = .instr (.extbit (q.a.setWidth 8))) ∧
  ∀ (b : Byte) (s : State), exec (.extbit b) s = .next { s with
    request := none, response := some ⟨.ok, if 128 ≤ b.toNat then 1 else 0, []⟩ }

/-- The pairs of commands that compute one result: EXTBIT and GETBIT 7, HEXB and HEXENC of one byte, MFRNAME32 and MFRNAME16
of its low half. -/
def Obligations.EqualCommands : Prop :=
  ∀ (s : State) (b : Byte) (w : Word),
    exec (.extbit b) s = exec (.getbit b 7) s ∧ exec (.hexb b) s = exec (.hexenc [b]) s ∧
    exec (.mfrname32 w) s = exec (.mfrname16 (w.setWidth 16)) s
end

