-- ==== Sys2Proof/Laws/Assembler.lean ====
section
/-! SUPPORT. What the assembler's lexer and numerals do: a run of plain characters is one word, and a written literal reads
as its value. -/

namespace Sys2Proof.Machine

/-- A character that only goes on with a word: none of the blank, the comma, the brackets and the quote. -/
def plain (c : Char) : Bool := c != ' ' && c != ',' && c != '[' && c != ']' && c != '"'

/-- A run of plain characters joins the word being read. -/
theorem tokens_append {l : List Char} (h : l.all plain = true) (cs w : List Char) :
    tokens (l ++ cs) w none = tokens cs (l.reverse ++ w) none := by
  induction l generalizing w with
  | nil => rfl
  | cons c l ih =>
    simp only [List.all_cons, Bool.and_eq_true] at h
    have hc := h.1
    simp only [plain, Bool.and_eq_true, bne_iff_ne] at hc
    simp [tokens, hc, ih h.2]

/-- The text of a quoted string, which holds no quote, is one token. -/
theorem tokens_quoted {l : List Char} (h : '"' ∉ l) (cs w t : List Char) :
    tokens (l ++ '"' :: cs) w (some t) = (tokens cs [] none).map (.text (t.reverse ++ l) :: ·) := by
  induction l generalizing t with
  | nil => simp [tokens]
  | cons c l ih =>
    simp only [List.mem_cons, not_or] at h
    simp [tokens, Ne.symm h.1, ih h.2]

/-- A character whose uppercase form is plain is plain. -/
theorem plain_of_toUpper {c : Char} (h : plain c.toUpper = true) : plain c = true := by
  by_contra hc
  have hs : c = ' ' ∨ c = ',' ∨ c = '[' ∨ c = ']' ∨ c = '"' := by
    simp only [plain, Bool.and_eq_true, bne_iff_ne] at hc
    tauto
  rcases hs with rfl | rfl | rfl | rfl | rfl <;> revert h <;> decide

/-- The digit character of a value below the base, of at most 16, has that value. -/
theorem digitValue_digitChar {base d : Nat} (hb : base ≤ 16) (hd : d < base) :
    digitValue base d.digitChar = some d := by
  have h : ∀ d : Fin 16, ∀ base : Fin 17, d.val < base.val → digitValue base d.val.digitChar = some d.val := by decide
  exact h ⟨d, by omega⟩ ⟨base, by omega⟩ hd

/-- A digit character is plain and no underscore. -/
theorem plain_digitChar {d : Nat} (hd : d < 16) : plain d.digitChar = true ∧ d.digitChar ≠ '_' := by
  have h : ∀ d : Fin 16, plain d.val.digitChar = true ∧ d.val.digitChar ≠ '_' := by decide
  exact h ⟨d, hd⟩

/-- One more digit after the digits of a number. -/
theorem digits_digitChar {base d : Nat} (hb : base ≤ 16) (hd : d < base) (cs : List Char) (v : Nat) (b : Bool) :
    digits base (d.digitChar :: cs) v b = digits base cs (base * v + d) true := by
  simp [digits, (plain_digitChar (Nat.lt_of_lt_of_le hd hb)).2, digitValue_digitChar hb hd]

/-- The digits of a number read as the number. -/
theorem digits_toDigits {base : Nat} (h1 : 1 < base) (hb : base ≤ 16) (n : Nat) (cs : List Char) (b : Bool) :
    digits base (Nat.toDigits base n ++ cs) 0 b = digits base cs n true := by
  induction n using Nat.strongRecOn generalizing cs with
  | ind n ih =>
    by_cases hn : n < base
    · simp [Nat.toDigits_of_lt_base hn, digits_digitChar hb hn]
    · have hlt : n / base < n := Nat.div_lt_self (by omega) h1
      have hm : n % base < base := Nat.mod_lt n (by omega)
      rw [Nat.toDigits_of_base_le h1 (by omega), List.append_assoc, List.singleton_append, ih _ hlt,
        digits_digitChar hb hm, Nat.div_add_mod]

/-- The digits of a number are digit characters. -/
theorem mem_toDigits {base : Nat} (h1 : 1 < base) (n : Nat) :
    ∀ c ∈ Nat.toDigits base n, ∃ d, d < base ∧ c = d.digitChar := by
  induction n using Nat.strongRecOn with
  | ind n ih =>
    intro c hc
    by_cases hn : n < base
    · rw [Nat.toDigits_of_lt_base hn, List.mem_singleton] at hc
      exact ⟨n, hn, hc⟩
    · rw [Nat.toDigits_of_base_le h1 (by omega), List.mem_append, List.mem_singleton] at hc
      rcases hc with hc | hc
      · exact ih _ (Nat.div_lt_self (by omega) h1) c hc
      · exact ⟨_, Nat.mod_lt n (by omega), hc⟩

/-- A written literal is one word. -/
theorem plain_literalText (r : Radix) (v : Int) : (literalText r v).all plain = true := by
  have h : ∀ {base : Nat}, 1 < base → base ≤ 16 → ∀ n, (Nat.toDigits base n).all plain = true := by
    intro base h1 hb n
    rw [List.all_eq_true]
    intro c hc
    obtain ⟨d, hd, rfl⟩ := mem_toDigits h1 n c hc
    exact (plain_digitChar (Nat.lt_of_lt_of_le hd hb)).1
  cases v with
  | ofNat n => cases r <;> simp [literalText, h, plain]
  | negSucc n => simp [literalText, h, plain]

/-- A written literal is not empty. -/
theorem literalText_ne_nil (r : Radix) (v : Int) : literalText r v ≠ [] := by
  cases v with
  | ofNat n => cases r <;> simp [literalText, Nat.toDigits_ne_nil]
  | negSucc n => simp [literalText]

/-- A written literal reads as its value. -/
theorem numeral_literalText (r : Radix) (v : Int) : numeral (literalText r v) = some v := by
  have h : ∀ {base : Nat}, 1 < base → base ≤ 16 → ∀ n, digits base (Nat.toDigits base n) 0 false = some n := by
    intro base h1 hb n
    have := digits_toDigits h1 hb n [] false
    rwa [List.append_nil] at this
  have hx : ∀ n, ∀ c ∈ Nat.toDigits 10 n, c ≠ 'x' ∧ c ≠ 'b' ∧ c ≠ '-' := by
    intro n c hc
    obtain ⟨d, hd, rfl⟩ := mem_toDigits (base := 10) (by decide) n c hc
    have hall : ∀ d : Fin 10, d.val.digitChar ≠ 'x' ∧ d.val.digitChar ≠ 'b' ∧ d.val.digitChar ≠ '-' := by decide
    exact hall ⟨d, hd⟩
  have hd : ∀ n, numeral (Nat.toDigits 10 n) = (digits 10 (Nat.toDigits 10 n) 0 false).map Int.ofNat := by
    intro n
    unfold numeral
    split
    next cs hc => exact absurd rfl (hx n 'x' (by rw [hc]; simp)).1
    next cs hc => exact absurd rfl (hx n 'b' (by rw [hc]; simp)).2.1
    next cs hc => exact absurd rfl (hx n '-' (by rw [hc]; simp)).2.2
    next => rfl
  cases v with
  | ofNat n =>
    cases r with
    | dec => simp [literalText, hd, h]
    | hex => simp [literalText, numeral, h]
    | bin => simp [literalText, numeral, h]
  | negSucc n => simp [literalText, numeral, h, Int.negSucc_eq]

/-! The form of each mnemonic's operands. -/

variable (ts : List Token)

theorem assembleCommand_hinib :
    assembleCommand "HINIB".toList ts = (oneLiteral 8 0 255 ts).map .hinib := rfl
theorem assembleCommand_lonib :
    assembleCommand "LONIB".toList ts = (oneLiteral 8 0 255 ts).map .lonib := rfl
theorem assembleCommand_hexb :
    assembleCommand "HEXB".toList ts = (oneLiteral 8 0 255 ts).map .hexb := rfl
theorem assembleCommand_extbit :
    assembleCommand "EXTBIT".toList ts = (oneLiteral 8 0 255 ts).map .extbit := rfl
theorem assembleCommand_mfrname16 :
    assembleCommand "MFRNAME16".toList ts = (oneLiteral 16 (-32768) 65535 ts).map .mfrname16 := rfl
theorem assembleCommand_mfrname32 :
    assembleCommand "MFRNAME32".toList ts = (oneLiteral 32 (-2147483648) 4294967295 ts).map .mfrname32 := rfl
theorem assembleCommand_getbit : assembleCommand "GETBIT".toList ts = twoBytes .getbit ts := rfl
theorem assembleCommand_setbit : assembleCommand "SETBIT".toList ts = twoBytes .setbit ts := rfl
theorem assembleCommand_mask : assembleCommand "MASK".toList ts = twoBytes .mask ts := rfl
theorem assembleCommand_or : assembleCommand "OR".toList ts = twoBytes .or ts := rfl
theorem assembleCommand_shr : assembleCommand "SHR".toList ts = twoBytes .shr ts := rfl
theorem assembleCommand_shl : assembleCommand "SHL".toList ts = twoBytes .shl ts := rfl
theorem assembleCommand_hexenc : assembleCommand "HEXENC".toList ts = (byteList ts).map .hexenc := rfl
theorem assembleCommand_hexdec : assembleCommand "HEXDEC".toList ts = (codeString ts).map .hexdec := rfl
theorem assembleCommand_mfrpack : assembleCommand "MFRPACK".toList ts = (codeString ts).map .mfrpack := rfl

/-- A written literal reads as its pattern within its range and as nothing outside it. -/
theorem literal_literalText (n : Nat) (lo hi : Int) (r : Radix) (v : Int) :
    literal n lo hi (literalText r v) = if lo ≤ v ∧ v ≤ hi then some (BitVec.ofInt n v) else none := by
  simp [literal, numeral_literalText]

/-- A line whose mnemonic, in uppercase, is `name`, is that mnemonic's command on the tokens of the operands. -/
theorem assemble_lineText {m name : List Char} (hm : m.map Char.toUpper = name) (hp : name.all plain = true)
    (hn : name ≠ []) (ops : List Char) :
    assemble (lineText m ops) = (tokens ops [] none).bind fun ts => (assembleCommand name ts).map encode := by
  have pm : m.all plain = true := by
    rw [List.all_eq_true] at hp ⊢
    intro c hc
    exact plain_of_toUpper (hp _ (hm ▸ List.mem_map_of_mem hc))
  have hm0 : m ≠ [] := by
    rintro rfl
    exact hn hm.symm
  have hup : ∀ ts, assembleCommand m ts = assembleCommand name ts := by
    intro ts
    have : name.map Char.toUpper = m.map Char.toUpper := by
      rw [← hm, List.map_map]
      exact List.map_congr_left fun c _ => by simp
    unfold assembleCommand
    rw [this]
  unfold assemble lineText
  rw [tokens_append pm]
  simp only [tokens, List.append_nil, if_true]
  cases tokens ops [] none with
  | none => rfl
  | some ts => simp [endWord, hm0, hup]

end Sys2Proof.Machine
end

