-- ==== Sys2Proof/Laws/State.lean ====
section
/-! SUPPORT. One lemma per field per update of State. -/

namespace Sys2Proof.Machine

variable (s : State) (r : Response) (q : Request) (l : List Request) (h : List HostAct)

@[simp] theorem State.complete_request : (s.complete r).request = none := rfl
@[simp] theorem State.complete_response : (s.complete r).response = some r := rfl
@[simp] theorem State.complete_waiting : (s.complete r).waiting = s.waiting := rfl
@[simp] theorem State.complete_incoming : (s.complete r).incoming = s.incoming := rfl
@[simp] theorem State.complete_delivered : (s.complete r).delivered = s.delivered := rfl

@[simp] theorem State.accept_request : (s.accept q l).request = some q := rfl
@[simp] theorem State.accept_response : (s.accept q l).response = s.response := rfl
@[simp] theorem State.accept_waiting : (s.accept q l).waiting = l := rfl
@[simp] theorem State.accept_incoming : (s.accept q l).incoming = s.incoming := rfl
@[simp] theorem State.accept_delivered : (s.accept q l).delivered = s.delivered := rfl

@[simp] theorem State.present_request : (s.present q).request = s.request := rfl
@[simp] theorem State.present_response : (s.present q).response = s.response := rfl
@[simp] theorem State.present_waiting : (s.present q).waiting = s.waiting ++ [q] := rfl
@[simp] theorem State.present_incoming : (s.present q).incoming = s.incoming := rfl
@[simp] theorem State.present_delivered : (s.present q).delivered = s.delivered := rfl

@[simp] theorem State.deliver_request : (s.deliver r).request = s.request := rfl
@[simp] theorem State.deliver_response : (s.deliver r).response = none := rfl
@[simp] theorem State.deliver_waiting : (s.deliver r).waiting = s.waiting := rfl
@[simp] theorem State.deliver_incoming : (s.deliver r).incoming = s.incoming := rfl
@[simp] theorem State.deliver_delivered : (s.deliver r).delivered = s.delivered ++ [r] := rfl

@[simp] theorem State.cancel_request : s.cancel.request = none := rfl
@[simp] theorem State.cancel_response : s.cancel.response = none := rfl
@[simp] theorem State.cancel_waiting : s.cancel.waiting = [] := rfl
@[simp] theorem State.cancel_incoming : s.cancel.incoming = s.incoming := rfl
@[simp] theorem State.cancel_delivered : s.cancel.delivered = s.delivered := rfl

@[simp] theorem State.setIncoming_request : (s.setIncoming h).request = s.request := rfl
@[simp] theorem State.setIncoming_response : (s.setIncoming h).response = s.response := rfl
@[simp] theorem State.setIncoming_waiting : (s.setIncoming h).waiting = s.waiting := rfl
@[simp] theorem State.setIncoming_incoming : (s.setIncoming h).incoming = h := rfl
@[simp] theorem State.setIncoming_delivered : (s.setIncoming h).delivered = s.delivered := rfl

end Sys2Proof.Machine
end

