-- ==== Sys2Proof/Laws/Ops.lean ====
section
/-! SUPPORT. One lemma per shared operation, saying once what it can do. -/

namespace Sys2Proof

/-- `fits` is the bound by `MAX_SEQ`, where there is one (`10_state.md` R22). -/
theorem Config.fits_iff (c : Config) (n : Nat) : c.fits n = true ↔ ∀ m, c.maxSeq = some m → n ≤ m := by
  unfold fits maxSeq
  cases c.seqBeyond3 with
  | none => simp
  | some k => simp; omega

/-- A length below one that fits, fits. -/
theorem Config.fits_mono {c : Config} {m n : Nat} (hmn : m ≤ n) (h : c.fits n = true) : c.fits m = true :=
  (c.fits_iff m).2 fun k hk => hmn.trans ((c.fits_iff n).1 h k hk)

/-- Three elements always fit: `MAX_SEQ ≥ 3` (`10_state.md` R22). -/
@[simp] theorem Config.fits_of_le_three (c : Config) {n : Nat} (h : n ≤ 3) : c.fits n = true := by simp [fits, h]

/-- Which field of a request each bit of its word comes from (`30_encoding.md` R60). -/
theorem Request.getLsbD_word (q : Request) (k : Nat) :
    q.word.getLsbD k =
      if k < 8 then q.opc.getLsbD k else if k < 16 then q.b.getLsbD (k - 8) else q.a.getLsbD (k - 16) := by
  have h : q.word.getLsbD k = ((q.a ++ q.b) ++ q.opc).getLsbD k := rfl
  rw [h, BitVec.getLsbD_append, BitVec.getLsbD_append]
  by_cases h8 : k < 8
  · simp [h8]
  · by_cases h16 : k < 16
    · simp [h8, h16, show k - 8 < 8 by omega]
    · simp [h8, h16, show ¬ k - 8 < 8 by omega, Nat.sub_sub]

namespace Machine

/-- An answer that is a next state is a response, held by the state it was given to. -/
theorem State.answer_eq_next {o : Reply} {s s' : State} :
    s.answer o = .next s' ↔ ∃ r, o = .next r ∧ s' = s.complete r := by
  cases o with
  | next r => simp [State.answer, eq_comm]
  | fault f => simp [State.answer]
  | refused f => simp [State.answer]

/-- A response answers with a next state. -/
@[simp] theorem State.answer_next (s : State) (r : Response) : s.answer (.next r) = .next (s.complete r) := rfl

/-- Every byte becomes two characters. -/
@[simp] theorem length_hexEncode (l : List Byte) : (hexEncode l).length = 2 * l.length := by
  induction l with
  | nil => rfl
  | cons b l ih => simp [hexEncode, hexPair, List.length_flatMap] at ih ⊢; omega

/-- Every two characters become a byte; a last odd one is dropped. -/
@[simp] theorem length_hexDecode (l : List Byte) : (hexDecode l).length = l.length / 2 := by
  induction l using hexDecode.induct with
  | case1 hi lo rest ih => simp [hexDecode, ih]; omega
  | case2 l h =>
    match l, h with
    | [], _ => rfl
    | [_], _ => simp [hexDecode]
    | a :: b :: t, h => exact absurd rfl (h a b t)

/-- One byte at a time, the high nibble's character first. -/
@[simp] theorem hexEncode_cons (b : Byte) (l : List Byte) :
    hexEncode (b :: l) = hexChar (highNibble b) :: hexChar (lowNibble b) :: hexEncode l := rfl

/-- The decoder's answer is illegal only for the opcode it was given. -/
theorem decode_illegal {q : Request} {opc : Byte} (h : decode q = .illegal opc) : opc = q.opc := by
  unfold decode at h
  split at h <;> simp_all

end Machine

end Sys2Proof
end

