-- ==== Sys2Proof/Laws/PerInstr.lean ====
section
/-! SUPPORT. Statements for all commands, proved one command at a time. -/

namespace Sys2Proof.Laws.OpcodeNamesUnit

/-- The high nibble of a command's opcode is its unit's code, and the command reads all of its opcode (`30_encoding.md`
R61, R63). -/
def Statement (i : Instr) : Prop :=
  i.opcode.extractLsb' 4 4 = i.unit.code ∧ (readMask i.opcode).extractLsb' 0 8 = 0xFF#8

theorem hinib (b : Byte) : Statement (.hinib b) := by
  simp [Statement, Instr.opcode, Instr.unit, FunctionalUnit.code, readMask]
theorem lonib (b : Byte) : Statement (.lonib b) := by
  simp [Statement, Instr.opcode, Instr.unit, FunctionalUnit.code, readMask]
theorem getbit (b p : Byte) : Statement (.getbit b p) := by
  simp [Statement, Instr.opcode, Instr.unit, FunctionalUnit.code, readMask]
theorem setbit (b p : Byte) : Statement (.setbit b p) := by
  simp [Statement, Instr.opcode, Instr.unit, FunctionalUnit.code, readMask]
theorem mask (b m : Byte) : Statement (.mask b m) := by
  simp [Statement, Instr.opcode, Instr.unit, FunctionalUnit.code, readMask]
theorem or (b o : Byte) : Statement (.or b o) := by
  simp [Statement, Instr.opcode, Instr.unit, FunctionalUnit.code, readMask]
theorem shr (b n : Byte) : Statement (.shr b n) := by
  simp [Statement, Instr.opcode, Instr.unit, FunctionalUnit.code, readMask]
theorem shl (b n : Byte) : Statement (.shl b n) := by
  simp [Statement, Instr.opcode, Instr.unit, FunctionalUnit.code, readMask]
theorem hexb (b : Byte) : Statement (.hexb b) := by
  simp [Statement, Instr.opcode, Instr.unit, FunctionalUnit.code, readMask]
theorem hexenc (s : List Byte) : Statement (.hexenc s) := by
  simp [Statement, Instr.opcode, Instr.unit, FunctionalUnit.code, readMask]
theorem hexdec (s : List Byte) : Statement (.hexdec s) := by
  simp [Statement, Instr.opcode, Instr.unit, FunctionalUnit.code, readMask]
theorem mfrpack (s : List Byte) : Statement (.mfrpack s) := by
  simp [Statement, Instr.opcode, Instr.unit, FunctionalUnit.code, readMask]
theorem mfrname16 (x : Code16) : Statement (.mfrname16 x) := by
  simp [Statement, Instr.opcode, Instr.unit, FunctionalUnit.code, readMask]
theorem mfrname32 (w : Word) : Statement (.mfrname32 w) := by
  simp [Statement, Instr.opcode, Instr.unit, FunctionalUnit.code, readMask]
theorem extbit (b : Byte) : Statement (.extbit b) := by
  simp [Statement, Instr.opcode, Instr.unit, FunctionalUnit.code, readMask]

end Sys2Proof.Laws.OpcodeNamesUnit
end

