-- ==== Sys2Proof/Laws/Port.lean ====
section
/-! SUPPORT. What the port can do, said once: serving a request is answering it with its outcome, and a step that answers
is one of eight moves. -/

namespace Sys2Proof.Machine

/-- The machine's meaning of a command is its outcome under the built configuration, as an answer. -/
theorem exec_eq_answer (i : Instr) (s : State) : exec i s = s.answer (reply Config.built i) := by
  cases i <;> rfl

/-- Serving a request answers it with its outcome (`10_state.md` R20). -/
theorem State.serve_eq_answer (q : Request) (s : State) : s.serve q = s.answer (transact Config.built q) := by
  unfold State.serve transact
  cases q.wellFormed Config.built with
  | false => rfl
  | true =>
    cases decode q with
    | instr i => exact exec_eq_answer i s
    | illegal opc => rfl

/-- A turn of the block that answers serves the request in progress, or accepts the oldest waiting one, or waits. -/
theorem State.blockTurn_eq_next {s s' : State} (h : s.blockTurn = .next s') :
    (∃ q r, s.request = some q ∧ transact Config.built q = .next r ∧ s' = s.complete r) ∨
    (∃ q rest, s.request = none ∧ s.response = none ∧ s.waiting = q :: rest ∧ s' = s.accept q rest) ∨
    (s.request = none ∧ (s.response = none → s.waiting = []) ∧ s' = s) := by
  unfold State.blockTurn at h
  split at h
  next q hq =>
    rw [State.serve_eq_answer, State.answer_eq_next] at h
    obtain ⟨r, hr, rfl⟩ := h
    exact .inl ⟨q, r, hq, hr, rfl⟩
  next q rest hq hr hw =>
    cases h
    exact .inr (.inl ⟨q, rest, hq, hr, hw, rfl⟩)
  next hq _ hw =>
    cases h
    exact .inr (.inr ⟨hq, fun _ => hw, rfl⟩)
  next r hq hr =>
    cases h
    exact .inr (.inr ⟨hq, fun h => (nomatch hr.symm.trans h), rfl⟩)

/-- What a step that answers does: it resets, takes a request in, delivers, serves, accepts or waits. In the last three the
host was silent, or waiting to collect, or let the block go on. -/
theorem step_eq_next {s s' : State} (h : step s = .next s') :
    (∃ rest, s.incoming = .reset :: rest ∧ s' = s.cancel.setIncoming rest) ∨
    (∃ q rest, s.incoming = .command q :: rest ∧ s' = (s.present q).setIncoming rest) ∨
    (∃ r rest, s.incoming = .collect :: rest ∧ s.request = none ∧ s.response = some r ∧
      s' = (s.deliver r).setIncoming rest) ∨
    (∃ rest, s.incoming = .wait :: rest ∧ (s.setIncoming rest).blockTurn = .next s') ∨
    (∃ rest, s.incoming = .collect :: rest ∧ s.blockTurn = .next s') ∨
    (s.incoming = [] ∧ s.blockTurn = .next s') := by
  unfold step State.portStep at h
  split at h
  next hi =>
    unfold State.hostSilent at h
    split at h
    next => nomatch h
    next => exact .inr (.inr (.inr (.inr (.inr ⟨hi, h⟩))))
  next rest hi =>
    cases h
    exact .inl ⟨rest, hi, rfl⟩
  next q rest hi =>
    cases h
    exact .inr (.inl ⟨q, rest, hi, rfl⟩)
  next rest hi =>
    unfold State.hostCollect at h
    split at h
    next => exact .inr (.inr (.inr (.inr (.inl ⟨rest, hi, h⟩))))
    next r hq hr =>
      cases h
      exact .inr (.inr (.inl ⟨r, rest, hi, hq, hr, rfl⟩))
    next => exact .inr (.inr (.inr (.inr (.inl ⟨rest, hi, h⟩))))
    next => nomatch h
  next rest hi => exact .inr (.inr (.inr (.inl ⟨rest, hi, h⟩)))

end Sys2Proof.Machine
end

