-- ==== Sys2Proof/Tests/Slice0.lean ====
section
/-! SUPPORT. Checks of the model on single words and single steps. Expected results are those of `95_test_vectors.md` (the
vector is named) or of the rule named. The witnesses show that the hypotheses of the statements can be met. -/

namespace Sys2Proof.Tests

open Sys2Proof.Machine

/-- A configuration with `MAX_SEQ = 3`. -/
def small : Config := ⟨some 0, fun _ _ => false, fun b _ => b, fun _ => (0, 0, 0)⟩

/-- The response an outcome leaves held. -/
def held (o : Host.Outcome State Fault Refusal) : Option Response :=
  match o with
  | .next s => s.response
  | .fault _ => none
  | .refused _ => none

/-- The response that a step gives a request word from reset. -/
def run (w : Nat) : Option Response := held (step (State.reset.withFetchWord 48 w))

/-- The response of a command from reset. -/
def result (i : Instr) : Option Response := held (exec i State.reset)

/-- The fault of an outcome. -/
def faultOf (o : Host.Outcome State Fault Refusal) : Option Fault :=
  match o with
  | .next _ => none
  | .fault f => some f
  | .refused _ => none

/-- The refusal of an outcome of R27. -/
def refusalOf (o : Reply) : Option Refusal :=
  match o with
  | .next _ => none
  | .fault _ => none
  | .refused f => some f

/-- A port with one request in progress. -/
def busy (q : Request) (h : List HostAct) : State := ⟨some q, none, [], h, []⟩

/-- A port with one response held. -/
def full (r : Response) (h : List HostAct) : State := ⟨none, some r, [], h, []⟩

/-- `HINIB 0x5A` (V-NIB-1). -/
def hinib5A : Request := ⟨0x10, 0x5A, 0, []⟩

/-! Well-formedness: `len(S) ≤ MAX_SEQ` (R22). -/

theorem test_illFormed_instr_refused : (Instr.hexdec [1, 2, 3, 4]).wellFormed small = false := by decide
theorem test_illFormed_request_refused : (Request.mk 0 0 0 [1, 2, 3, 4]).wellFormed small = false := by decide
theorem test_wellFormed_at_bound : (Instr.hexdec [1, 2, 3]).wellFormed small = true := by decide

/-! Decoding: words written out from R60 and R62, one for every command. -/

theorem test_decode_hinib : decodeTableWord 48 0x0000005A0010 = some (.hinib 0x5A) := by decide
theorem test_decode_lonib : decodeTableWord 48 0x0000005AFF11 = some (.lonib 0x5A) := by decide
theorem test_decode_getbit : decodeTableWord 48 0x000000800720 = some (.getbit 0x80 7) := by decide
theorem test_decode_setbit : decodeTableWord 48 0x000000120821 = some (.setbit 0x12 8) := by decide
theorem test_decode_mask : decodeTableWord 48 0x0000005A0F22 = some (.mask 0x5A 0x0F) := by decide
theorem test_decode_or : decodeTableWord 48 0x000000500A23 = some (.or 0x50 0x0A) := by decide
theorem test_decode_shr : decodeTableWord 48 0x000000800724 = some (.shr 0x80 7) := by decide
theorem test_decode_shl : decodeTableWord 48 0x00000001C825 = some (.shl 0x01 200) := by decide
theorem test_decode_hexb : decodeTableWord 48 0x0000009F0030 = some (.hexb 0x9F) := by decide
theorem test_decode_hexenc : decode ⟨0x31, 0, 0, [0x0A, 0xFF]⟩ = .instr (.hexenc [0x0A, 0xFF]) := by decide
theorem test_decode_hexdec : decode ⟨0x32, 0, 0, [0x61, 0x62]⟩ = .instr (.hexdec [0x61, 0x62]) := by decide
theorem test_decode_mfrpack : decode ⟨0x40, 0, 0, [0x45, 0x4C, 0x56]⟩ = .instr (.mfrpack [0x45, 0x4C, 0x56]) := by decide
theorem test_decode_mfrname16 : decodeTableWord 48 0xABCD15960041 = some (.mfrname16 0x1596) := by decide
theorem test_decode_mfrname32 : decodeTableWord 48 0xFFFF15960042 = some (.mfrname32 0xFFFF1596) := by decide
theorem test_decode_extbit : decodeTableWord 48 0x0000007F0043 = some (.extbit 0x7F) := by decide
theorem test_decode_gaps :
    [0x00, 0x12, 0x26, 0x33, 0x44, 0xFF].map (decodeTableWord 48) = List.replicate 6 none := by decide

/-! One step for each command. -/

/-- V-NIB-13. -/
theorem test_hinib : run 0xFFFFFF5A0010 = some ⟨.ok, 0x05, []⟩ := by decide
/-- V-NIB-14. -/
theorem test_lonib : run 0x0000005AFF11 = some ⟨.ok, 0x0A, []⟩ := by decide
/-- V-BIT-1, V-BIT-7. -/
theorem test_getbit : run 0x000000800720 = some ⟨.ok, 1, []⟩ ∧ run 0x0000005A0020 = some ⟨.ok, 0, []⟩ := by decide
/-- V-BIT-14. -/
theorem test_setbit : run 0x0000005A0721 = some ⟨.ok, 0xDA, []⟩ := by decide
/-- V-BIT-8, V-BIT-16: the open values. -/
theorem test_high_positions :
    result (.getbit 0x80 8) = some ⟨.ok, boolWord (Config.built.getBitHigh 0x80 8), []⟩ ∧
      result (.setbit 0x12 8) = some ⟨.ok, (Config.built.setBitHigh 0x12 8).setWidth 32, []⟩ := ⟨rfl, rfl⟩
/-- V-BIT-17. -/
theorem test_mask : run 0x0000005A0F22 = some ⟨.ok, 0x0A, []⟩ := by decide
/-- V-BIT-21. -/
theorem test_or : run 0x000000500A23 = some ⟨.ok, 0x5A, []⟩ := by decide
/-- V-BIT-25. -/
theorem test_shr : run 0x000000800724 = some ⟨.ok, 1, []⟩ := by decide
/-- V-BIT-29. -/
theorem test_shr_width : run 0x000000FF0824 = some ⟨.ok, 0, []⟩ := by decide
/-- V-BIT-34. -/
theorem test_shl : run 0x000000810125 = some ⟨.ok, 2, []⟩ := by decide
/-- V-BIT-37. -/
theorem test_shl_beyond : run 0x00000001C825 = some ⟨.ok, 0, []⟩ := by decide
/-- V-HEX-8. -/
theorem test_hexb : run 0x0000009F0030 = some ⟨.ok, 0, [0x39, 0x46]⟩ := by decide
/-- V-HEX-14. -/
theorem test_hexenc : result (.hexenc [0x00]) = some ⟨.ok, 0, [0x30, 0x30]⟩ := by decide
/-- V-HEX-16. -/
theorem test_hexenc_capacity : refusalOf (reply small (.hexenc [0x0A, 0xFF])) = some .seqTooLong := by decide
/-- V-HEX-21. -/
theorem test_hexdec : result (.hexdec [0x30, 0x61, 0x46, 0x46]) = some ⟨.ok, 0, [0x0A, 0xFF]⟩ := by decide
/-- V-HEX-25, V-HEX-27. -/
theorem test_hexdec_errors :
    result (.hexdec [0x47]) = some ⟨.eHexlen, 0, []⟩ ∧
      faultOf (exec (.hexdec [0x30, 0x78]) State.reset) = some .hexBadChar := by decide
/-- V-MFR-14. -/
theorem test_mfrpack_wraps : result (.mfrpack [0, 0, 0]) = some ⟨.ok, 0xF7C0, []⟩ := by decide
/-- V-MFR-8. -/
theorem test_mfrpack_short : result (.mfrpack [0x41, 0x42]) = some ⟨.eMfrlen, 0, []⟩ := by decide
/-- V-MFR-25. -/
theorem test_mfrname16 : run 0xABCD15960041 = some ⟨.ok, 0, [0x45, 0x4C, 0x56]⟩ := by decide
/-- V-MFR-32. -/
theorem test_mfrname32 : run 0x800004210042 = some ⟨.ok, 0, [0x41, 0x41, 0x41]⟩ := by decide
/-- V-MFR-33. -/
theorem test_extbit : run 0x000000800043 = some ⟨.ok, 1, []⟩ := by decide
/-- V-MFR-34. -/
theorem test_extbit_clear : run 0x0000007F0043 = some ⟨.ok, 0, []⟩ := by decide
/-- V-ENC-2. -/
theorem test_illegal_opcode : run 0x0000005A0112 = some ⟨.eIllop, 0, []⟩ := by decide
/-- V-ENC-7, at `MAX_SEQ = 3`: the refusal comes before the illegal opcode. -/
theorem test_capacity_first : refusalOf (transact small ⟨0, 0, 0, [0, 1, 2, 3]⟩) = some .seqTooLong := by decide

/-! The assembler (R69). -/

theorem test_assemble_bytes : assemble "getbit 0x80, 7".toList = some ⟨0x20, 0x80, 7, []⟩ := by decide
theorem test_assemble_text : assemble "HEXDEC \"ab\"".toList = some ⟨0x32, 0, 0, [0x61, 0x62]⟩ := by decide
theorem test_assemble_list : assemble "HEXENC [10, 0b1000_0000]".toList = some ⟨0x31, 0, 0, [0x0A, 0x80]⟩ := by decide
theorem test_assemble_signed : assemble "MFRNAME16 -1".toList = some ⟨0x41, 0x0000FFFF, 0, []⟩ := by decide
/-- `+5` is an error and `-0` is 0 (log entry 10). -/
theorem test_assemble_signs :
    assemble "MFRNAME16 +5".toList = none ∧ assemble "HINIB -0".toList = some ⟨0x10, 0, 0, []⟩ := by decide
theorem test_assemble_range : assemble "HINIB 256".toList = none := by decide

/-! Witnesses: concrete states and operands that meet the hypotheses of the statements. -/

/-- A request of each opcode: the decoding clauses of the fifteen result statements. -/
theorem witness_opcodes :
    [0x10#8, 0x11#8, 0x20#8, 0x21#8, 0x22#8, 0x23#8, 0x24#8, 0x25#8, 0x30#8, 0x31#8, 0x32#8, 0x40#8, 0x41#8, 0x42#8,
      0x43#8].all (fun o => (Request.mk o 0 0 []).opc == o) = true := by decide

theorem witness_EncodeOfDecodeKeepsReadBits :
    decode ⟨0x31, 7, 9, [1]⟩ = .instr (.hexenc [1]) ∧ readsSeq 0x31 = true := by decide

theorem witness_UnreadFieldsIgnored :
    let w : RequestWord := 0x0000005A0010
    let w' : RequestWord := 0xABCDEF5AFF10
    (Request.ofWord w []).opc = (Request.ofWord w' [1]).opc ∧ w &&& readMask 0x10 = w' &&& readMask 0x10 ∧
      readsSeq 0x10 = false ∧ Config.built.fits 0 = Config.built.fits 1 ∧
      readsSeq (Instr.hinib 0).opcode = false := by decide

theorem witness_AssembledLinesDecode :
    assemble "hinib 0x5a".toList = some hinib5A ∧ "HiNib".toList.map Char.toUpper = "HINIB".toList ∧
      "or".toList.map Char.toUpper = "OR".toList ∧ "hexdec".toList.map Char.toUpper = "HEXDEC".toList ∧
      "mfrname16".toList.map Char.toUpper = "MFRNAME16".toList ∧
      "MfrName32".toList.map Char.toUpper = "MFRNAME32".toList ∧ '"' ∉ "0aFF".toList := by decide

/-- The lines of R69 as the statement about them writes them. -/
theorem test_lineText :
    lineText "MASK".toList (itemsText .hex [0x5A, 15]) = "MASK 0x5a, 0xf".toList ∧
      lineText "HEXENC".toList (listText .bin [2, 128]) = "HEXENC [0b10, 0b10000000]".toList ∧
      lineText "MFRNAME16".toList (literalText .hex (-1)) = "MFRNAME16 -1".toList ∧
      lineText "MFRPACK".toList (quotedText "ELV".toList) = "MFRPACK \"ELV\"".toList := by decide

theorem witness_StepRunsDecodedInstr :
    hinib5A.wellFormed Config.built = true ∧ decode hinib5A = .instr (.hinib 0x5A) ∧
      (busy hinib5A []).incoming = [] ∧ (busy hinib5A [.collect]).incoming = .collect :: [] ∧
      (busy hinib5A [.wait]).incoming = .wait :: [] ∧ (busy hinib5A []).request = some hinib5A := by decide

theorem witness_StepRefinesTransact :
    (busy hinib5A [.collect]).request = some hinib5A ∧ (∃ rest, (busy hinib5A [.collect]).incoming = .collect :: rest) ∧
      (busy ⟨0x12, 0, 0, []⟩ [.wait]).request = some ⟨0x12, 0, 0, []⟩ ∧
      (busy ⟨0x12, 0, 0, []⟩ [.wait]).incoming = .wait :: [] :=
  ⟨rfl, ⟨[], rfl⟩, rfl, rfl⟩

theorem witness_CommandsAreIndependent :
    step (busy hinib5A []) = .next ((busy hinib5A []).complete ⟨.ok, 5, []⟩) ∧ (busy hinib5A []).request = some hinib5A ∧
      (State.mk (some hinib5A) none [hinib5A] [] [⟨.ok, 1, []⟩]).request = some hinib5A := ⟨rfl, rfl, rfl⟩

theorem witness_HostResetCancels : (busy hinib5A [.reset]).incoming = .reset :: [] := rfl

theorem witness_EarlyReadRefused :
    let s : State := ⟨none, none, [], [.collect], []⟩
    s.idle ∧ s.incoming = .collect :: [] := ⟨⟨rfl, rfl, rfl⟩, rfl⟩

theorem witness_HeldResponseWaits :
    (full ⟨.ok, 5, []⟩ []).request = none ∧ (full ⟨.ok, 5, []⟩ []).response = some ⟨.ok, 5, []⟩ ∧
      (full ⟨.ok, 5, []⟩ []).incoming = [] ∧ (full ⟨.ok, 5, []⟩ [.wait]).incoming = .wait :: [] := by decide

theorem witness_CollectDelivers :
    (full ⟨.ok, 5, []⟩ [.collect]).request = none ∧ (full ⟨.ok, 5, []⟩ [.collect]).response = some ⟨.ok, 5, []⟩ ∧
      (full ⟨.ok, 5, []⟩ [.collect]).incoming = .collect :: [] := by decide

theorem witness_PresentedRequestWaits :
    (full ⟨.ok, 5, []⟩ [.command hinib5A]).incoming = .command hinib5A :: [] := rfl

theorem witness_AcceptOnlyWhenIdle :
    step ⟨none, none, [hinib5A], [], []⟩ = .next (busy hinib5A []) ∧ (busy hinib5A []).request = some hinib5A := ⟨rfl, rfl⟩

theorem witness_StepKeepsPortInvariant :
    (busy hinib5A []).Inv Config.built ∧ step (busy hinib5A []) = .next ((busy hinib5A []).complete ⟨.ok, 5, []⟩) :=
  ⟨⟨.inr rfl, by simp [busy], by simp [busy]⟩, rfl⟩

/-- A state that holds and has delivered responses: the invariant is not met by empty ports alone. -/
theorem witness_PortInvariant_full :
    (State.mk none (some ⟨.ok, 5, []⟩) [] [.collect] [⟨.eIllop, 0, []⟩]).Inv Config.built := by
  refine ⟨.inl rfl, ?_, ?_⟩
  · intro r hr
    cases hr
    exact ⟨by simp, by simp, rfl, by decide⟩
  · intro r hr
    cases List.mem_singleton.1 hr
    exact ⟨fun _ => ⟨rfl, rfl⟩, by simp, rfl, by decide⟩

theorem witness_StepKeepsTranscript :
    (busy hinib5A []).oneInHand ∧ (∀ rest, (busy hinib5A []).incoming ≠ .reset :: rest) ∧
      step (busy hinib5A []) = .next ((busy hinib5A []).complete ⟨.ok, 5, []⟩) :=
  ⟨.inr rfl, fun _ => nofun, rfl⟩

theorem witness_SessionDeliversInOrder :
    let s : State := ⟨none, none, [], session [hinib5A, ⟨0x12, 0, 0, []⟩], []⟩
    s.idle ∧ s.incoming = session [hinib5A, ⟨0x12, 0, 0, []⟩] ++ [] ∧
      [hinib5A, ⟨0x12, 0, 0, []⟩].map (transact Config.built) = [⟨.ok, 5, []⟩, ⟨.eIllop, 0, []⟩].map .next :=
  ⟨⟨rfl, rfl, rfl⟩, rfl, rfl⟩

theorem witness_CapacityRefused :
    small.maxSeq = some 3 ∧ 3 < (Request.mk 0x10 0 0 [0, 1, 2, 3]).s.length ∧ 3 < 2 * [0x0A#8, 0xFF#8].length := by decide

theorem witness_ErrorsCarryNothing :
    transact Config.built ⟨0x12, 0, 0, []⟩ = .next ⟨.eIllop, 0, []⟩ ∧
      (busy ⟨0x12, 0, 0, []⟩ []).request = some ⟨0x12, 0, 0, []⟩ := ⟨rfl, rfl⟩

theorem witness_TotalCommandsComplete :
    (∀ l, Instr.hexenc [1] ≠ .hexdec l) ∧ (∀ l, Instr.hexenc [1] ≠ .mfrpack l) ∧
      ∀ l, Instr.hexenc [1] = .hexenc l → small.fits (2 * l.length) = true := by
  refine ⟨nofun, nofun, ?_⟩
  rintro l ⟨⟩
  decide

theorem witness_bit_positions :
    (7#8).toNat ≤ 7 ∧ 7 < (8#8).toNat ∧ 8 ≤ (8#8).toNat ∧ (0#8).toNat ≤ 7 ∧ (0#8) ≠ 7#8 ∧ 8 ≤ (255#8).toNat := by decide

theorem witness_BitUnitResultsAreBytes : (Instr.getbit 0x80 8).unit = .bit := rfl

theorem witness_HexAlphabet : isHex 0x66 = true ∧ isHex 0x30 = true := by decide

theorem witness_HexencResult :
    Config.built.fits (2 * [0x0A#8].length) = true ∧ Config.built.fits (2 * ([] : List Byte).length) = true ∧
      [0x0A#8][0]? = some 0x0A#8 ∧ small.fits (2 * [0x0A#8, 0xFF#8].length) = false := by decide

theorem witness_HexdecResult :
    ([0x30#8, 0x61#8].length % 2 = 0 ∧ ∀ x ∈ [0x30#8, 0x61#8], isHex x = true) ∧
      [0x30#8, 0x61#8][2 * 0]? = some 0x30#8 ∧ [0x30#8, 0x61#8][2 * 0 + 1]? = some 0x61#8 ∧ [0x47#8].length % 2 = 1 ∧
      [0x30#8, 0x78#8].length % 2 = 0 ∧ ∃ x ∈ [0x30#8, 0x78#8], isHex x = false := by decide

theorem witness_HexRoundTrips :
    small.fits (2 * [0x0A#8].length) = true ∧ small.fits [0x30#8, 0x61#8].length = true ∧
      [0x30#8, 0x61#8].length % 2 = 0 ∧ ∀ x ∈ [0x30#8, 0x61#8], isHex x = true := by decide

theorem witness_HexOutputAlphabet :
    (∃ b, Instr.hexb 0x9F = .hexb b) ∧ reply small (.hexb 0x9F) = .next ⟨.ok, 0, [0x39, 0x46]⟩ ∧
      (0x39 : Byte) ∈ [(0x39 : Byte), 0x46] := ⟨⟨_, rfl⟩, rfl, by decide⟩

theorem witness_MfrpackResult : [0x41#8, 0x42#8].length ≠ 3 ∧ ([] : List Byte).length ≠ 3 := by decide

theorem witness_manufacturer_codes :
    0 ≤ (0x7FFF#16).toInt ∧ 0 ≤ (0x0000#16).toInt ∧ (0x8000#16).toInt < 0 ∧ (0xFFFF#16).toInt < 0 ∧
      (0xABCD8000#32).setWidth 16 = 0x8000#16 ∧ (0x7FFF#16).getLsbD 15 = false := by decide

theorem witness_PackBitFields : ∀ l ∈ [0x41#8, 0x5A#8, 0x45#8], 65 ≤ l.toNat ∧ l.toNat ≤ 90 := by decide

theorem witness_MfrRoundTrip : ∀ l ∈ [0x40#8, 0x5F#8, 0x41#8], 64 ≤ l.toNat ∧ l.toNat ≤ 95 := by decide

end Sys2Proof.Tests
end

/-! ## Rules for a step with a request in progress, and for the capacity bound -/

namespace Sys2Proof

/-- `MAX_SEQ` is counted from 3, so a bound is never below it (`10_state.md` R22). -/
theorem Config.three_le_maxSeq {c : Config} {m : Nat} (hm : c.maxSeq = some m) : 3 ≤ m := by
  obtain ⟨k, -, rfl⟩ := Option.map_eq_some_iff.1 hm
  exact Nat.le_add_right 3 k

theorem Config.fits_eq_false {c : Config} {m n : Nat} (hm : c.maxSeq = some m) (hn : m < n) : c.fits n = false :=
  Bool.eq_false_iff.2 fun h => absurd ((c.fits_iff n).1 h m hm) (Nat.not_le.2 hn)

namespace Machine

/-- The capacity is checked before the opcode (`60_exceptions.md` R207). -/
theorem transact_eq_refused {c : Config} {q : Request} (hq : q.wellFormed c = false) :
    transact c q = .refused .seqTooLong := by
  simp [transact, hq]

theorem transact_eq_reply {c : Config} {q : Request} {i : Instr} (hq : q.wellFormed c = true)
    (hi : decode q = .instr i) : transact c q = reply c i := by
  simp [transact, hq, hi]

/-- HEXENC checks its result's length besides its operand's (`10_state.md` R25). -/
theorem reply_hexenc_eq_refused {c : Config} {l : List Byte} (hl : c.fits (2 * l.length) = false) :
    reply c (.hexenc l) = .refused .seqTooLong := by
  simp [reply, hexencReply, hl]

section

variable {s : State} {q : Request} {rest : List HostAct}

/-- With a request in progress, neither a held response nor the waiting requests are looked at. -/
theorem State.blockTurn_eq_answer (hq : s.request = some q) :
    s.blockTurn = s.answer (transact Config.built q) := by
  simp [State.blockTurn, hq, State.serve_eq_answer]

theorem step_eq_answer_of_silent (hq : s.request = some q) (hi : s.incoming = []) :
    step s = s.answer (transact Config.built q) := by
  simp [step, State.portStep, hi, State.hostSilent, hq, State.blockTurn_eq_answer]

/-- A host that reads the port early waits for the response; its read stays in `incoming` (log entry 5). -/
theorem step_eq_answer_of_collect (hq : s.request = some q) (hi : s.incoming = .collect :: rest) :
    step s = s.answer (transact Config.built q) := by
  simp [step, State.portStep, hi, State.hostCollect, hq, State.blockTurn_eq_answer]

/-- A pause of the host is used up while the block goes on (log entry 5). -/
theorem step_eq_answer_of_wait (hq : s.request = some q) (hi : s.incoming = .wait :: rest) :
    step s = (s.setIncoming rest).answer (transact Config.built q) := by
  have hq' : (s.setIncoming rest).request = some q := hq
  simp [step, State.portStep, hi, State.blockTurn_eq_answer hq']

end

/-! ## The obligations of the state's family -/

/-- Settles O9: in each of the three host cases the step answers the request with its outcome; what is left is `answer`
and `complete` written out, outcome by outcome. -/
theorem stepRefinesTransact : Obligations.StepRefinesTransact := by
  intro s q hq
  refine ⟨fun hi => ?_, fun rest hi => ?_⟩
  · have hstep : step s = s.answer (transact Config.built q) := by
      obtain hi | ⟨rest, hi⟩ := hi
      · exact step_eq_answer_of_silent hq hi
      · exact step_eq_answer_of_collect hq hi
    rw [hstep]
    cases transact Config.built q <;> rfl
  · rw [step_eq_answer_of_wait hq hi]
    cases transact Config.built q <;> rfl

/-- Settles O8: the outcome of a request that fits and decodes to `i` is the reply of `i`, which `exec i` answers. -/
theorem stepRunsDecodedInstr : Obligations.StepRunsDecodedInstr := by
  intro s q i hq hwf hdec
  have hexec (s' : State) : s'.answer (transact Config.built q) = exec i s' := by
    rw [transact_eq_reply hwf hdec, exec_eq_answer]
  refine ⟨fun hi => ?_, fun rest hi => ?_, fun rest hi => ?_⟩
  · exact (step_eq_answer_of_silent hq hi).trans (hexec s)
  · exact (step_eq_answer_of_collect hq hi).trans (hexec s)
  · exact (step_eq_answer_of_wait hq hi).trans (hexec (s.setIncoming rest))

/-- Settles O23: a length above the bound does not fit, and both checks refuse what does not fit. -/
theorem capacityRefused : Obligations.CapacityRefused := by
  intro c m hm
  refine ⟨Config.three_le_maxSeq hm, fun q hq => ?_, fun l hl => ?_⟩
  · exact transact_eq_refused (Config.fits_eq_false hm hq)
  · exact reply_hexenc_eq_refused (Config.fits_eq_false hm hl)

/-- Settles O29: each code is the one `Status.code` gives its status (`10_state.md` R24). -/
theorem statusCodes : Obligations.StatusCodes := ⟨rfl, rfl, rfl, rfl⟩

end Machine

end Sys2Proof

/-! ## Rules for the form of a response, for the moves of the port, and for an exchange -/

namespace Sys2Proof.Machine

section ResponseForm

variable {c : Config} {r : Response}

theorem Response.scalar_wf {v : Word} (hv : v.toNat < 65536) : (Response.scalar v).wf c :=
  ⟨fun h => absurd rfl h, fun h => absurd rfl h, c.fits_of_le_three (Nat.zero_le 3), hv⟩

theorem Response.seq_wf {l : List Byte} (hl : c.fits l.length = true) : (Response.seq l).wf c :=
  ⟨fun h => absurd rfl h, fun _ => rfl, hl, show (0 : Word).toNat < 65536 by decide⟩

theorem Response.error_wf (e : Status) : (Response.error e).wf c :=
  ⟨fun _ => ⟨rfl, rfl⟩, fun _ => rfl, c.fits_of_le_three (Nat.zero_le 3),
    show (0 : Word).toNat < 65536 by decide⟩

/-- A value of at most 16 bits, zero-extended onto the result bus (`10_state.md` R26). -/
theorem Response.scalar_setWidth_wf {n : Nat} (hn : n ≤ 16) (v : BitVec n) :
    (Response.scalar (v.setWidth 32)).wf c := by
  refine Response.scalar_wf (Nat.lt_of_le_of_lt ?_ (v.isLt.trans_le (Nat.pow_le_pow_right (by decide) hn)))
  rw [BitVec.toNat_setWidth]
  exact Nat.mod_le _ _

theorem Response.bool_wf (b : Bool) : (Response.bool b).wf c :=
  Response.scalar_wf (by cases b <;> decide)

theorem length_mfrName (c : Config) (x : Code16) : (mfrName c x).length = 3 := by
  unfold mfrName
  split <;> rfl

/-- MFRPACK answers on every length (`43_manufacturer.md` R170, `60_exceptions.md` R204). -/
theorem wf_of_mfrpackReply {l : List Byte} (h : mfrpackReply l = .next r) : r.wf c := by
  unfold mfrpackReply at h
  split at h
  next =>
    cases h
    exact Response.scalar_setWidth_wf le_rfl _
  next =>
    cases h
    exact Response.error_wf _

/-- HEXENC answers only where its result fits (`10_state.md` R25). -/
theorem wf_of_hexencReply {l : List Byte} (h : hexencReply c l = .next r) : r.wf c := by
  unfold hexencReply at h
  split at h
  next hfits =>
    cases h
    exact Response.seq_wf (by rwa [length_hexEncode])
  next => nomatch h

/-- HEXDEC's result is half as long as its operand, so it fits where the operand does. -/
theorem wf_of_hexdecReply {l : List Byte} (hl : c.fits l.length = true) (h : hexdecReply l = .next r) : r.wf c := by
  unfold hexdecReply at h
  split at h
  next =>
    cases h
    exact Response.error_wf _
  next =>
    split at h
    next =>
      cases h
      exact Response.seq_wf (Config.fits_mono (by simp; omega) hl)
    next => nomatch h

/-- Every response of a command is in the one form of `10_state.md` R23, R25 and R26, under every configuration. -/
theorem wf_of_reply {i : Instr} (hi : i.wellFormed c = true) (h : reply c i = .next r) : r.wf c := by
  cases i with
  | hinib b | lonib b | setbit b p | mask b m | or b o | shr b n | shl b n =>
    cases h
    exact Response.scalar_setWidth_wf (by decide) _
  | getbit b p | extbit b =>
    cases h
    exact Response.bool_wf _
  | hexb b =>
    cases h
    exact Response.seq_wf (c.fits_of_le_three (by decide : 2 ≤ 3))
  | hexenc l => exact wf_of_hexencReply h
  | hexdec l => exact wf_of_hexdecReply hi h
  | mfrpack l => exact wf_of_mfrpackReply h
  | mfrname16 x | mfrname32 w =>
    cases h
    exact Response.seq_wf (c.fits_of_le_three (length_mfrName _ _).le)

/-- A decoded command carries the sequence operand of its request, or none (`30_encoding.md` R64). -/
theorem seqOperand_of_decode {q : Request} {i : Instr} (h : decode q = .instr i) :
    i.seqOperand = q.s ∨ i.seqOperand = [] := by
  unfold decode at h
  split at h <;> cases h <;> simp [Instr.seqOperand]

theorem wellFormed_of_decode {q : Request} {i : Instr} (hq : q.wellFormed c = true) (h : decode q = .instr i) :
    i.wellFormed c = true := by
  unfold Instr.wellFormed
  obtain hs | hs := seqOperand_of_decode h
  · rwa [hs]
  · rw [hs]
    exact c.fits_of_le_three (Nat.zero_le 3)

/-- An opcode that selects no command is answered with its error, after the capacity check (`60_exceptions.md` R202). -/
theorem transact_eq_error {q : Request} {opc : Byte} (hq : q.wellFormed c = true) (h : decode q = .illegal opc) :
    transact c q = .next (.error .eIllop) := by
  simp [transact, hq, h]

theorem wf_of_transact {q : Request} (h : transact c q = .next r) : r.wf c := by
  cases hq : q.wellFormed c with
  | false => exact nomatch (transact_eq_refused hq).symm.trans h
  | true =>
    cases hd : decode q with
    | instr i => exact wf_of_reply (wellFormed_of_decode hq hd) ((transact_eq_reply hq hd).symm.trans h)
    | illegal opc =>
      cases (transact_eq_error hq hd).symm.trans h
      exact Response.error_wf _

end ResponseForm

section Moves

variable {s s' : State}

/-- The moves of a step that answers, by what they do at the port: a reset, a request presented, a response delivered, or a
turn of the block, in which the host presents nothing and uses up at most a pause. -/
theorem step_moves (h : step s = .next s') :
    (∃ rest, s.incoming = .reset :: rest ∧ s' = s.cancel.setIncoming rest) ∨
    (∃ q rest, s.incoming = .command q :: rest ∧ s' = (s.present q).setIncoming rest) ∨
    (∃ r rest, s.incoming = .collect :: rest ∧ s.request = none ∧ s.response = some r ∧
      s' = (s.deliver r).setIncoming rest) ∨
    ∃ acts, commandsOf acts = commandsOf s.incoming ∧ (s.setIncoming acts).blockTurn = .next s' := by
  obtain hreset | hpresent | hdeliver | ⟨rest, hi, hturn⟩ | ⟨-, -, hturn⟩ | ⟨-, hturn⟩ := step_eq_next h
  · exact .inl hreset
  · exact .inr (.inl hpresent)
  · exact .inr (.inr (.inl hdeliver))
  · exact .inr (.inr (.inr ⟨rest, by rw [hi, commandsOf], hturn⟩))
  · exact .inr (.inr (.inr ⟨s.incoming, rfl, hturn⟩))
  · exact .inr (.inr (.inr ⟨s.incoming, rfl, hturn⟩))

theorem blockTurn_keeps_inv (hs : s.Inv Config.built) (h : s.blockTurn = .next s') : s'.Inv Config.built := by
  obtain ⟨hone, hheld, hdelivered⟩ := hs
  obtain ⟨q, r, -, hr, rfl⟩ | ⟨q, rest, -, hnone, -, rfl⟩ | ⟨-, -, rfl⟩ := State.blockTurn_eq_next h
  · refine ⟨.inl rfl, fun r' hr' => ?_, hdelivered⟩
    cases hr'
    exact wf_of_transact hr
  · exact ⟨.inr hnone, hheld, hdelivered⟩
  · exact ⟨hone, hheld, hdelivered⟩

/-- A turn of the block moves an exchange along the record and changes no outcome in it: the response held was the outcome
of the request in progress, and the request in progress was the oldest waiting one. -/
theorem blockTurn_keeps_transcript (hs : s.oneInHand) (h : s.blockTurn = .next s') :
    s'.transcript Config.built = s.transcript Config.built := by
  obtain ⟨q, r, hq, hr, rfl⟩ | ⟨q, rest, hq, -, hw, rfl⟩ | ⟨-, -, rfl⟩ := State.blockTurn_eq_next h
  · have hnone : s.response = none := hs.resolve_left (by simp [hq])
    simp [State.transcript, hq, hnone, hr]
  · simp [State.transcript, hq, hw]
  · rfl

theorem transcript_setIncoming {c : Config} {acts : List HostAct} (h : commandsOf acts = commandsOf s.incoming) :
    (s.setIncoming acts).transcript c = s.transcript c := by
  simp [State.transcript, h]

end Moves

section Exchange

variable {s : State} {q : Request} {r : Response} {rest : List HostAct}

theorem step_eq_present_of_command (hi : s.incoming = .command q :: rest) :
    step s = .next ((s.present q).setIncoming rest) := by
  simp [step, State.portStep, hi]

/-- A host that reads the port while requests wait lets the block accept the oldest (log entry 5). -/
theorem step_eq_accept_of_collect {queue : List Request} (hq : s.request = none) (hr : s.response = none)
    (hw : s.waiting = q :: queue) (hi : s.incoming = .collect :: rest) : step s = .next (s.accept q queue) := by
  simp [step, State.portStep, hi, State.hostCollect, State.blockTurn, hq, hr, hw]

theorem step_eq_deliver_of_collect (hq : s.request = none) (hr : s.response = some r)
    (hi : s.incoming = .collect :: rest) : step s = .next ((s.deliver r).setIncoming rest) := by
  simp [step, State.portStep, hi, State.hostCollect, hq, hr]

theorem run_succ_of_step {s' : State} (k : Nat) (h : step s = .next s') :
    core.run (k + 1) s = core.run k s' := by
  have hcore : core.step s = .next s' := h
  simp only [Host.Core.run, hcore]

/-- One exchange from a ready block: present, accept, complete, collect (log entry 8). -/
theorem run_exchange (k : Nat) (delivered : List Response) (hr : transact Config.built q = .next r) :
    core.run (k + 4) (⟨none, none, [], .command q :: .collect :: rest, delivered⟩ : State) =
      core.run k (⟨none, none, [], rest, delivered ++ [r]⟩ : State) :=
  calc core.run (k + 4) (⟨none, none, [], .command q :: .collect :: rest, delivered⟩ : State)
    _ = core.run (k + 3) (⟨none, none, [q], .collect :: rest, delivered⟩ : State) :=
      run_succ_of_step _ (step_eq_present_of_command rfl)
    _ = core.run (k + 2) (⟨some q, none, [], .collect :: rest, delivered⟩ : State) :=
      run_succ_of_step _ (step_eq_accept_of_collect rfl rfl rfl rfl)
    _ = core.run (k + 1) (⟨none, some r, [], .collect :: rest, delivered⟩ : State) :=
      run_succ_of_step _ (by rw [step_eq_answer_of_collect rfl rfl, hr]; rfl)
    _ = core.run k (⟨none, none, [], rest, delivered ++ [r]⟩ : State) :=
      run_succ_of_step _ (step_eq_deliver_of_collect rfl rfl rfl)

/-- A session from a ready block is its exchanges one after the other. -/
theorem run_session (qs : List Request) (rs : List Response) (delivered : List Response)
    (hrs : qs.map (transact Config.built) = rs.map .next) :
    core.run (4 * qs.length) (⟨none, none, [], session qs ++ rest, delivered⟩ : State) =
      .next (⟨none, none, [], rest, delivered ++ rs⟩ : State) := by
  induction qs generalizing rs delivered with
  | nil =>
    obtain rfl : rs = [] := List.map_eq_nil_iff.1 hrs.symm
    rw [List.append_nil]
    rfl
  | cons q qs ih =>
    obtain ⟨r, rs, rfl, hr, hrs⟩ := List.map_eq_cons_iff.1 hrs.symm
    calc core.run (4 * qs.length + 4) (⟨none, none, [], session (q :: qs) ++ rest, delivered⟩ : State)
      _ = core.run (4 * qs.length) (⟨none, none, [], session qs ++ rest, delivered ++ [r]⟩ : State) :=
        run_exchange _ _ hr.symm
      _ = .next (⟨none, none, [], rest, (delivered ++ [r]) ++ rs⟩ : State) := ih rs _ hrs.symm
      _ = .next (⟨none, none, [], rest, delivered ++ r :: rs⟩ : State) := by
        rw [List.append_assoc, List.singleton_append]

end Exchange

/-! ## The obligations of the memory family -/

/-- Settles O19: only a turn of the block forms a response, and `wf_of_transact` gives its form; the other moves only take
one away or hand it to the host. -/
theorem stepKeepsPortInvariant : Obligations.StepKeepsPortInvariant := by
  rintro s s' ⟨hone, hheld, hdelivered⟩ h
  obtain ⟨rest, -, rfl⟩ | ⟨q, rest, -, rfl⟩ | ⟨r, rest, -, -, hr, rfl⟩ | ⟨acts, -, hturn⟩ := step_moves h
  · exact ⟨.inl rfl, nofun, hdelivered⟩
  · exact ⟨hone, hheld, hdelivered⟩
  · refine ⟨.inr rfl, nofun, fun r' hr' => ?_⟩
    obtain hold | hnew := List.mem_append.1 hr'
    · exact hdelivered r' hold
    · exact List.mem_singleton.1 hnew ▸ hheld r hr
  · exact blockTurn_keeps_inv (s := s.setIncoming acts) ⟨hone, hheld, hdelivered⟩ hturn

/-- Settles O20: presenting, delivering and a turn of the block each move an outcome to the next place of the record. -/
theorem stepKeepsTranscript : Obligations.StepKeepsTranscript := by
  intro s s' hs hnoReset h
  obtain ⟨rest, hi, -⟩ | ⟨q, rest, hi, rfl⟩ | ⟨r, rest, hi, hq, hr, rfl⟩ | ⟨acts, hacts, hturn⟩ := step_moves h
  · exact absurd hi (hnoReset rest)
  · simp [State.transcript, hi, commandsOf]
  · simp [State.transcript, hi, hq, hr, commandsOf]
  · exact (blockTurn_keeps_transcript (s := s.setIncoming acts) hs hturn).trans (transcript_setIncoming hacts)

/-- Settles O17: of all moves, only the block's accepting puts a request in progress that was not. -/
theorem acceptOnlyWhenIdle : Obligations.AcceptOnlyWhenIdle := by
  intro s s' q h hq
  obtain ⟨rest, -, rfl⟩ | ⟨p, rest, -, rfl⟩ | ⟨r, rest, -, -, -, rfl⟩ | ⟨acts, -, hturn⟩ := step_moves h
  · exact nomatch hq
  · exact .inl hq
  · exact .inl hq
  · obtain ⟨p, r, -, -, rfl⟩ | ⟨p, queue, hnone, hfree, hw, rfl⟩ | ⟨-, -, rfl⟩ := State.blockTurn_eq_next hturn
    · exact nomatch hq
    · cases hq
      exact .inr ⟨hnone, hfree, hw, hfree⟩
    · exact .inl hq

/-- Settles O21: a ready state has nothing in hand, so its run of a session is `run_session`. -/
theorem sessionDeliversInOrder : Obligations.SessionDeliversInOrder := by
  rintro qs rs ⟨request, response, waiting, incoming, delivered⟩ rest ⟨hrequest, hresponse, hwaiting⟩ hi hrs
  cases hrequest
  cases hresponse
  cases hwaiting
  cases hi
  exact run_session qs rs delivered hrs

end Sys2Proof.Machine

/-! ## The request word, the part of a request that its command reads, and the two directions of the encoding -/

namespace Sys2Proof

section Word

variable (q : Request)

/-! The slices of the request word (`30_encoding.md` R60). -/

theorem Request.word_slice_a : q.word.extractLsb' 16 32 = q.a := by
  unfold Request.word
  rw [BitVec.extractLsb'_append_eq_of_le (by decide)]
  exact BitVec.extractLsb'_append_eq_left

theorem Request.word_slice_b : q.word.extractLsb' 8 8 = q.b := by
  unfold Request.word
  rw [BitVec.extractLsb'_append_eq_of_le (by decide)]
  exact BitVec.extractLsb'_append_eq_right

theorem Request.word_slice_opc : q.word.extractLsb' 0 8 = q.opc := BitVec.extractLsb'_append_eq_right

theorem Request.ofWord_word : Request.ofWord q.word q.s = q := by
  unfold Request.ofWord
  rw [q.word_slice_a, q.word_slice_b, q.word_slice_opc]

/-- The three slices cover the word: `RQ = {A, B, OPC}`. -/
theorem Request.word_ofWord (w : RequestWord) (l : List Byte) : (Request.ofWord w l).word = w := by
  have hAB : w.extractLsb' 16 32 ++ w.extractLsb' 8 8 = w.extractLsb' 8 40 :=
    BitVec.extractLsb'_append_extractLsb'_eq_extractLsb' rfl
  have hRQ : w.extractLsb' 8 40 ++ w.extractLsb' 0 8 = w := BitVec.extractLsb'_append_extractLsb'
  exact (congrArg (· ++ w.extractLsb' 0 8) hAB).trans hRQ

/-! The operands on bus `A` (`30_encoding.md` R64). -/

theorem Request.byteA_eq_setWidth : q.byteA = q.a.setWidth 8 :=
  (BitVec.setWidth_eq_extractLsb' (by decide)).symm

theorem Request.codeA_eq_setWidth : q.codeA = q.a.setWidth 16 :=
  (BitVec.setWidth_eq_extractLsb' (by decide)).symm

/-- Zero-extending the low `n` bits of a word keeps them and clears the rest. -/
theorem setWidth_setWidth_eq_and {n : Nat} (hn : n ≤ 32) (x : Word) :
    (x.setWidth n).setWidth 32 = x &&& BitVec.ofNat 32 (2 ^ n - 1) := by
  have hpow : 2 ^ n ≤ 2 ^ 32 := Nat.pow_le_pow_right (by decide) hn
  have hmask : 2 ^ n - 1 < 2 ^ 32 := Nat.lt_of_lt_of_le (Nat.sub_one_lt (Nat.two_pow_pos n).ne') hpow
  have hlow : x.toNat % 2 ^ n < 2 ^ 32 := Nat.lt_of_lt_of_le (Nat.mod_lt _ (Nat.two_pow_pos n)) hpow
  apply BitVec.eq_of_toNat_eq
  rw [BitVec.toNat_setWidth, BitVec.toNat_setWidth, BitVec.toNat_and, BitVec.toNat_ofNat,
    Nat.mod_eq_of_lt hmask, Nat.and_two_pow_sub_one_eq_mod, Nat.mod_eq_of_lt hlow]

theorem Request.setWidth_byteA : q.byteA.setWidth 32 = q.a &&& 0xFF#32 := by
  rw [q.byteA_eq_setWidth]
  exact setWidth_setWidth_eq_and (by decide) q.a

theorem Request.setWidth_codeA : q.codeA.setWidth 32 = q.a &&& 0xFFFF#32 := by
  rw [q.codeA_eq_setWidth]
  exact setWidth_setWidth_eq_and (by decide) q.a

end Word

/-! Decoding what the encoder writes. -/

/-- The operands are read back from the places they were written to (`30_encoding.md` R64). -/
theorem decode_encode (i : Instr) : decode (encode i) = .instr i := by
  cases i with
  | hinib b | lonib b | getbit b p | setbit b p | mask b m | or b o | shr b n | shl b n | hexb b | extbit b =>
    simp [decode, encode, Instr.opcode, Instr.busA, Instr.busB, Request.byteA_eq_setWidth]
  | mfrname16 x => simp [decode, encode, Instr.opcode, Instr.busA, Request.codeA_eq_setWidth]
  | mfrname32 w => rfl
  | hexenc l | hexdec l | mfrpack l => rfl

section ReadPart

variable {q q' : Request} {i : Instr}

/-- The request with every bit, and the sequence, that its command does not read cleared (`30_encoding.md` R65). -/
def Request.readPart (q : Request) : Request where
  opc := q.opc
  a := q.a &&& (readMask q.opc).extractLsb' 16 32
  b := q.b &&& (readMask q.opc).extractLsb' 8 8
  s := if readsSeq q.opc then q.s else []

/-- Every opcode, assigned or not, is read whole (`30_encoding.md` R63). -/
theorem readMask_slice_opc (opc : Byte) : (readMask opc).extractLsb' 0 8 = 0xFF#8 := by
  unfold readMask
  split <;> rfl

/-- `readPart` is the read mask on the request word. -/
theorem Request.readPart_eq_ofWord (q : Request) :
    q.readPart = .ofWord (q.word &&& readMask q.opc) (if readsSeq q.opc then q.s else []) := by
  have hopc : q.opc &&& 0xFF#8 = q.opc := BitVec.and_allOnes
  simp only [Request.readPart, Request.ofWord, BitVec.extractLsb'_and, q.word_slice_a, q.word_slice_b,
    q.word_slice_opc, readMask_slice_opc, hopc]

theorem Request.word_readPart (q : Request) : q.readPart.word = q.word &&& readMask q.opc := by
  rw [q.readPart_eq_ofWord, Request.word_ofWord]

/-- Encoding a decoded command gives back what the command reads of the request, and zero elsewhere: the three widths of
an operand on bus `A`, the whole of bus `B`, and the sequence are each what the read mask lets through. -/
theorem encode_of_decode (h : decode q = .instr i) : encode i = q.readPart := by
  have ha : q.a &&& 0xFFFFFFFF#32 = q.a := BitVec.and_allOnes
  have hb : q.b &&& 0xFF#8 = q.b := BitVec.and_allOnes
  unfold decode at h
  split at h
  all_goals cases h
  all_goals
    next hopc =>
      simp [encode, Instr.opcode, Instr.busA, Instr.busB, Instr.seqOperand, Request.readPart, hopc, readMask, readsSeq,
        q.setWidth_byteA, q.setWidth_codeA, ha, hb]

/-- The decoder finds no command exactly for an opcode that is none of the fifteen (`30_encoding.md` R62, R67). -/
theorem decode_eq_illegal_iff : decode q = .illegal q.opc ↔
    q.opc ∉ [0x10#8, 0x11#8, 0x20#8, 0x21#8, 0x22#8, 0x23#8, 0x24#8, 0x25#8, 0x30#8, 0x31#8, 0x32#8, 0x40#8, 0x41#8,
      0x42#8, 0x43#8] := by
  constructor
  · intro h
    unfold decode at h
    split at h
    case h_16 => simp_all
    all_goals nomatch h
  · intro h
    unfold decode
    split
    case h_16 => rfl
    all_goals simp [*] at h

/-- What a command does not read does not change what the decoder makes of a request. -/
theorem decode_readPart (q : Request) : decode q.readPart = decode q := by
  cases h : decode q with
  | instr i => rw [← encode_of_decode h, decode_encode]
  | illegal opc =>
    obtain rfl := Machine.decode_illegal h
    exact decode_eq_illegal_iff.2 (decode_eq_illegal_iff (q := q).1 h)

/-- Requests of one opcode that agree in all that it reads are read alike. -/
theorem Request.readPart_congr (hopc : q.opc = q'.opc)
    (hword : q.word &&& readMask q.opc = q'.word &&& readMask q.opc) (hs : readsSeq q.opc = true → q.s = q'.s) :
    q.readPart = q'.readPart := by
  have hseq : (if readsSeq q.opc then q.s else []) = if readsSeq q.opc then q'.s else [] := by
    split
    next h => exact hs h
    next => rfl
  rw [Request.readPart_eq_ofWord, Request.readPart_eq_ofWord, ← hopc, hword, hseq]

/-- The encoder writes nothing that its command does not read (`30_encoding.md` R65). -/
theorem readPart_encode (i : Instr) : (encode i).readPart = encode i := (encode_of_decode (decode_encode i)).symm

end ReadPart

namespace Machine

/-- The outcome depends on a request through its decoding and the capacity check of its sequence (`60_exceptions.md`
R207). -/
theorem transact_congr {c : Config} {q q' : Request} (hd : decode q = decode q')
    (hfits : c.fits q.s.length = c.fits q'.s.length) : transact c q = transact c q' := by
  unfold transact Request.wellFormed
  rw [hd, hfits]

/-! ## The obligations of the encoding family on the decoder and the encoder -/

/-- Settles O1: `decode_encode`, command by command. -/
theorem decodeOfEncode : Obligations.DecodeOfEncode := decode_encode

/-- Settles O2: the encoding of a decoded command is what the command reads of the request. -/
theorem encodeOfDecodeKeepsReadBits : Obligations.EncodeOfDecodeKeepsReadBits := by
  intro q i h
  rw [encode_of_decode h]
  refine ⟨rfl, ?_, fun hs => if_pos hs⟩
  rw [q.word_readPart, BitVec.and_assoc, BitVec.and_self]

/-- Settles O3: the slices of an appended word are its parts, and its parts appended are the word. -/
theorem requestWordFields : Obligations.RequestWordFields :=
  ⟨fun q => ⟨q.word_slice_a, q.word_slice_b, q.word_slice_opc⟩, Request.ofWord_word,
    fun w l => ⟨Request.word_ofWord w l, rfl⟩⟩

/-- Settles O4: two such requests have one read part, which decodes as each of them does; and an encoded command is its own
read part, so it has nothing outside the mask. -/
theorem unreadFieldsIgnored : Obligations.UnreadFieldsIgnored := by
  refine ⟨fun c w w' l l' hopc hword hs hfits => ?_, fun i => ⟨?_, fun hs => ?_⟩⟩
  · have hread : (Request.ofWord w l).readPart = (Request.ofWord w' l').readPart :=
      Request.readPart_congr hopc (by rwa [Request.word_ofWord, Request.word_ofWord]) hs
    refine transact_congr ?_ hfits
    rw [← decode_readPart, hread, decode_readPart]
  · have hword : (encode i).word = (encode i).word &&& readMask i.opcode :=
      calc (encode i).word = (encode i).readPart.word := by rw [readPart_encode]
        _ = (encode i).word &&& readMask i.opcode := (encode i).word_readPart
    rw [hword, BitVec.and_assoc, BitVec.and_not_self]
    exact BitVec.and_zero
  · rw [← readPart_encode]
    exact if_neg (by simp [encode, hs])

/-- Settles O5: the opcodes that are none of the fifteen, as the five ranges of R67. -/
theorem illegalOpcodesExactly : Obligations.IllegalOpcodesExactly := by
  intro q
  rw [decode_eq_illegal_iff]
  simp only [List.mem_cons, List.not_mem_nil, or_false, BitVec.toNat_eq, BitVec.toNat_ofNat]
  omega

/-- Settles O6: each word decoded. -/
theorem writtenWordsDecode : Obligations.WrittenWordsDecode := by
  unfold Obligations.WrittenWordsDecode
  decide

end Machine

end Sys2Proof

/-! ## Rules for the assembler's written operands and for its mnemonics -/

namespace Sys2Proof.Machine

section Operands

variable (r : Radix)

/-- The tokens of literals with commas between them, as `itemsText` writes them. -/
def itemTokens (r : Radix) : List Int → List Token
  | [] => []
  | [v] => [.word (literalText r v)]
  | v :: vs => .word (literalText r v) :: .comma :: itemTokens r vs

/-- Written literals are read as their tokens, before any text that ends a word. -/
theorem tokens_itemsText {cs : List Char} {ts : List Token} (hend : ∀ w, tokens cs w none = some (endWord w ts))
    (vs : List Int) : tokens (itemsText r vs ++ cs) [] none = some (itemTokens r vs ++ ts) := by
  induction vs with
  | nil => exact hend []
  | cons v vs ih =>
    cases vs with
    | nil =>
      rw [itemsText, tokens_append (plain_literalText r v), hend]
      simp [itemTokens, endWord, literalText_ne_nil]
    | cons w vs =>
      have htext : itemsText r (v :: w :: vs) ++ cs = literalText r v ++ ',' :: ' ' :: (itemsText r (w :: vs) ++ cs) := by
        simp [itemsText]
      rw [htext, tokens_append (plain_literalText r v)]
      simp [tokens, ih, itemTokens, endWord, literalText_ne_nil]

theorem tokens_operands (vs : List Int) : tokens (itemsText r vs) [] none = some (itemTokens r vs) := by
  simpa using tokens_itemsText r (cs := []) (ts := []) (fun _ => rfl) vs

theorem tokens_literalText (v : Int) : tokens (literalText r v) [] none = some [.word (literalText r v)] :=
  tokens_operands r [v]

theorem tokens_listText (vs : List Int) :
    tokens (listText r vs) [] none = some (.openList :: (itemTokens r vs ++ [.closeList])) := by
  have hend : ∀ w, tokens [']'] w none = some (endWord w [.closeList]) := fun _ => rfl
  simp [listText, tokens, tokens_itemsText r hend, endWord]

theorem tokens_quotedText {l : List Char} (hl : '"' ∉ l) : tokens (quotedText l) [] none = some [.text l] := by
  have hquoted := tokens_quoted hl [] [] []
  simpa [quotedText, tokens, endWord] using hquoted

/-! What the operand parsers make of those tokens (`30_encoding.md` R69). -/

theorem byteLiteral_literalText (v : Int) :
    byteLiteral (literalText r v) = if 0 ≤ v ∧ v ≤ 255 then some (BitVec.ofInt 8 v) else none :=
  literal_literalText 8 0 255 r v

theorem twoBytes_itemTokens (mk : Byte → Byte → Instr) (v w : Int) :
    twoBytes mk (itemTokens r [v, w]) =
      if (0 ≤ v ∧ v ≤ 255) ∧ 0 ≤ w ∧ w ≤ 255 then some (mk (BitVec.ofInt 8 v) (BitVec.ofInt 8 w)) else none := by
  simp only [itemTokens, twoBytes, byteLiteral_literalText]
  by_cases hv : 0 ≤ v ∧ v ≤ 255 <;> simp [hv]

theorem listItems_itemTokens (v : Int) (vs : List Int) :
    listItems (itemTokens r (v :: vs) ++ [.closeList]) =
      if ∀ x ∈ v :: vs, 0 ≤ x ∧ x ≤ 255 then some ((v :: vs).map (BitVec.ofInt 8)) else none := by
  induction vs generalizing v with
  | nil => simp [itemTokens, listItems, byteLiteral_literalText]
  | cons w vs ih =>
    have htokens : itemTokens r (v :: w :: vs) ++ [.closeList] =
        .word (literalText r v) :: .comma :: (itemTokens r (w :: vs) ++ [.closeList]) := rfl
    rw [htokens, listItems, ih, byteLiteral_literalText]
    by_cases hv : 0 ≤ v ∧ v ≤ 255 <;> simp [hv]

theorem byteList_itemTokens (vs : List Int) :
    byteList (.openList :: (itemTokens r vs ++ [.closeList])) =
      if ∀ v ∈ vs, 0 ≤ v ∧ v ≤ 255 then some (vs.map (BitVec.ofInt 8)) else none := by
  cases vs with
  | nil => simp [itemTokens, byteList]
  | cons v vs =>
    rw [← listItems_itemTokens]
    cases vs <;> rfl

theorem textCodes_eq (l : List Char) :
    textCodes l = if ∀ x ∈ l, x.toNat < 128 then some (l.map fun x => BitVec.ofNat 8 x.toNat) else none := by
  simp [textCodes]

end Operands

section Mnemonics

variable {name : List Char} {o : Byte}

/-- The mnemonics of one byte literal (`30_encoding.md` R69), with their opcodes. -/
def oneByteMnemonics : List (List Char × Byte) :=
  [("HINIB".toList, 0x10#8), ("LONIB".toList, 0x11#8), ("HEXB".toList, 0x30#8), ("EXTBIT".toList, 0x43#8)]

/-- The mnemonics of two byte literals. -/
def twoByteMnemonics : List (List Char × Byte) :=
  [("GETBIT".toList, 0x20#8), ("SETBIT".toList, 0x21#8), ("MASK".toList, 0x22#8), ("OR".toList, 0x23#8),
    ("SHR".toList, 0x24#8), ("SHL".toList, 0x25#8)]

/-- The mnemonics of a bracketed list. -/
def listMnemonics : List (List Char × Byte) :=
  [("HEXENC".toList, 0x31#8), ("HEXDEC".toList, 0x32#8), ("MFRPACK".toList, 0x40#8)]

/-- The mnemonics of a quoted string. -/
def textMnemonics : List (List Char × Byte) := [("HEXDEC".toList, 0x32#8), ("MFRPACK".toList, 0x40#8)]

theorem plain_of_mem_mnemonics : ∀ p ∈ oneByteMnemonics ++ (twoByteMnemonics ++ listMnemonics),
    p.1.all plain = true ∧ p.1 ≠ [] := by decide

theorem assembleCommand_oneByte (h : (name, o) ∈ oneByteMnemonics) :
    ∃ mk : Byte → Instr, (∀ b, encode (mk b) = ⟨o, b.setWidth 32, 0, []⟩) ∧
      ∀ ts, assembleCommand name ts = (oneLiteral 8 0 255 ts).map mk := by
  simp only [oneByteMnemonics, List.mem_cons, Prod.mk.injEq, List.not_mem_nil, or_false] at h
  obtain ⟨rfl, rfl⟩ | ⟨rfl, rfl⟩ | ⟨rfl, rfl⟩ | ⟨rfl, rfl⟩ := h
  · exact ⟨.hinib, fun _ => rfl, assembleCommand_hinib⟩
  · exact ⟨.lonib, fun _ => rfl, assembleCommand_lonib⟩
  · exact ⟨.hexb, fun _ => rfl, assembleCommand_hexb⟩
  · exact ⟨.extbit, fun _ => rfl, assembleCommand_extbit⟩

theorem assembleCommand_twoByte (h : (name, o) ∈ twoByteMnemonics) :
    ∃ mk : Byte → Byte → Instr, (∀ b p, encode (mk b p) = ⟨o, b.setWidth 32, p, []⟩) ∧
      ∀ ts, assembleCommand name ts = twoBytes mk ts := by
  simp only [twoByteMnemonics, List.mem_cons, Prod.mk.injEq, List.not_mem_nil, or_false] at h
  obtain ⟨rfl, rfl⟩ | ⟨rfl, rfl⟩ | ⟨rfl, rfl⟩ | ⟨rfl, rfl⟩ | ⟨rfl, rfl⟩ | ⟨rfl, rfl⟩ := h
  · exact ⟨.getbit, fun _ _ => rfl, assembleCommand_getbit⟩
  · exact ⟨.setbit, fun _ _ => rfl, assembleCommand_setbit⟩
  · exact ⟨.mask, fun _ _ => rfl, assembleCommand_mask⟩
  · exact ⟨.or, fun _ _ => rfl, assembleCommand_or⟩
  · exact ⟨.shr, fun _ _ => rfl, assembleCommand_shr⟩
  · exact ⟨.shl, fun _ _ => rfl, assembleCommand_shl⟩

/-- HEXDEC and MFRPACK read a list after looking for a string, which an opening bracket is not. -/
theorem assembleCommand_list (h : (name, o) ∈ listMnemonics) :
    ∃ mk : List Byte → Instr, (∀ l, encode (mk l) = ⟨o, 0, 0, l⟩) ∧
      ∀ ts, assembleCommand name (.openList :: ts) = (byteList (.openList :: ts)).map mk := by
  simp only [listMnemonics, List.mem_cons, Prod.mk.injEq, List.not_mem_nil, or_false] at h
  obtain ⟨rfl, rfl⟩ | ⟨rfl, rfl⟩ | ⟨rfl, rfl⟩ := h
  · exact ⟨.hexenc, fun _ => rfl, fun ts => assembleCommand_hexenc _⟩
  · exact ⟨.hexdec, fun _ => rfl, fun ts => assembleCommand_hexdec _⟩
  · exact ⟨.mfrpack, fun _ => rfl, fun ts => assembleCommand_mfrpack _⟩

theorem assembleCommand_text (h : (name, o) ∈ textMnemonics) :
    ∃ mk : List Byte → Instr, (∀ l, encode (mk l) = ⟨o, 0, 0, l⟩) ∧
      ∀ l, assembleCommand name [.text l] = (textCodes l).map mk := by
  simp only [textMnemonics, List.mem_cons, Prod.mk.injEq, List.not_mem_nil, or_false] at h
  obtain ⟨rfl, rfl⟩ | ⟨rfl, rfl⟩ := h
  · exact ⟨.hexdec, fun _ => rfl, fun l => assembleCommand_hexdec _⟩
  · exact ⟨.mfrpack, fun _ => rfl, fun l => assembleCommand_mfrpack _⟩

end Mnemonics

section Lines

variable {m : List Char} {o : Byte}

/-- What a line assembles to is the encoding of a command. -/
theorem exists_encode_of_assemble {line : List Char} {q : Request} (h : assemble line = some q) :
    ∃ i, q = encode i := by
  unfold assemble at h
  split at h
  next m ts _ =>
    obtain ⟨i, -, rfl⟩ := Option.map_eq_some_iff.1 h
    exact ⟨i, rfl⟩
  next => nomatch h

theorem assemble_lineText_of_tokens {ops : List Char} {ts : List Token}
    (hm : (m.map Char.toUpper).all plain = true ∧ m.map Char.toUpper ≠ []) (hts : tokens ops [] none = some ts) :
    assemble (lineText m ops) = (assembleCommand (m.map Char.toUpper) ts).map encode := by
  rw [assemble_lineText rfl hm.1 hm.2, hts, Option.bind_some]

/-- A byte literal's pattern, zero-extended onto bus `A`, is its value there. -/
theorem setWidth_ofInt_of_byte {v : Int} (hv : 0 ≤ v ∧ v ≤ 255) :
    (BitVec.ofInt 8 v).setWidth 32 = BitVec.ofInt 32 v := by
  obtain ⟨n, rfl⟩ := Int.eq_ofNat_of_zero_le hv.1
  have hn : n < 2 ^ 8 := by omega
  rw [BitVec.ofInt_natCast, BitVec.ofInt_natCast, BitVec.setWidth_ofNat_of_le_of_lt (by decide) hn]

theorem assemble_oneLiteral {n : Nat} {lo hi : Int} {mk : BitVec n → Instr}
    (hm : (m.map Char.toUpper).all plain = true ∧ m.map Char.toUpper ≠ [])
    (hcommand : ∀ ts, assembleCommand (m.map Char.toUpper) ts = (oneLiteral n lo hi ts).map mk) (r : Radix) (v : Int) :
    assemble (lineText m (literalText r v)) =
      if lo ≤ v ∧ v ≤ hi then some (encode (mk (BitVec.ofInt n v))) else none := by
  rw [assemble_lineText_of_tokens hm (tokens_literalText r v), hcommand, oneLiteral, literal_literalText, Option.map_if,
    Option.map_if]

theorem assemble_oneByte (h : (m.map Char.toUpper, o) ∈ oneByteMnemonics) (r : Radix) (v : Int) :
    assemble (lineText m (literalText r v)) =
      if 0 ≤ v ∧ v ≤ 255 then some ⟨o, BitVec.ofInt 32 v, 0, []⟩ else none := by
  obtain ⟨mk, hencode, hcommand⟩ := assembleCommand_oneByte h
  rw [assemble_oneLiteral (plain_of_mem_mnemonics _ (List.mem_append_left _ h)) hcommand]
  by_cases hv : 0 ≤ v ∧ v ≤ 255
  · simp [hv, hencode, setWidth_ofInt_of_byte hv]
  · simp [hv]

theorem assemble_twoByte (h : (m.map Char.toUpper, o) ∈ twoByteMnemonics) (r : Radix) (v w : Int) :
    assemble (lineText m (itemsText r [v, w])) =
      if (0 ≤ v ∧ v ≤ 255) ∧ 0 ≤ w ∧ w ≤ 255 then some ⟨o, BitVec.ofInt 32 v, BitVec.ofInt 8 w, []⟩ else none := by
  have hm := plain_of_mem_mnemonics _ (List.mem_append_right _ (List.mem_append_left _ h))
  obtain ⟨mk, hencode, hcommand⟩ := assembleCommand_twoByte h
  rw [assemble_lineText_of_tokens hm (tokens_operands r [v, w]), hcommand, twoBytes_itemTokens]
  by_cases hv : 0 ≤ v ∧ v ≤ 255
  · simp [hv, hencode, setWidth_ofInt_of_byte hv]
  · simp [hv]

theorem assemble_list (h : (m.map Char.toUpper, o) ∈ listMnemonics) (r : Radix) (vs : List Int) :
    assemble (lineText m (listText r vs)) =
      if ∀ v ∈ vs, 0 ≤ v ∧ v ≤ 255 then some ⟨o, 0, 0, vs.map (BitVec.ofInt 8)⟩ else none := by
  have hm := plain_of_mem_mnemonics _ (List.mem_append_right _ (List.mem_append_right _ h))
  obtain ⟨mk, hencode, hcommand⟩ := assembleCommand_list h
  rw [assemble_lineText_of_tokens hm (tokens_listText r vs), hcommand, byteList_itemTokens, Option.map_if, Option.map_if,
    hencode]

theorem assemble_text (h : (m.map Char.toUpper, o) ∈ textMnemonics) {l : List Char} (hl : '"' ∉ l) :
    assemble (lineText m (quotedText l)) =
      if ∀ x ∈ l, x.toNat < 128 then some ⟨o, 0, 0, l.map fun x => BitVec.ofNat 8 x.toNat⟩ else none := by
  have hm := plain_of_mem_mnemonics _
    (List.mem_append_right _ (List.mem_append_right _ (List.mem_cons_of_mem _ h)))
  obtain ⟨mk, hencode, hcommand⟩ := assembleCommand_text h
  rw [assemble_lineText_of_tokens hm (tokens_quotedText hl), hcommand, textCodes_eq, Option.map_if, Option.map_if,
    hencode]

theorem assemble_mfrname16 (hm : m.map Char.toUpper = "MFRNAME16".toList) (r : Radix) (v : Int) :
    assemble (lineText m (literalText r v)) =
      if -32768 ≤ v ∧ v ≤ 65535 then some ⟨0x41, (BitVec.ofInt 16 v).setWidth 32, 0, []⟩ else none :=
  assemble_oneLiteral (by rw [hm]; decide) (by rw [hm]; exact assembleCommand_mfrname16) r v

theorem assemble_mfrname32 (hm : m.map Char.toUpper = "MFRNAME32".toList) (r : Radix) (v : Int) :
    assemble (lineText m (literalText r v)) =
      if -2147483648 ≤ v ∧ v ≤ 4294967295 then some ⟨0x42, BitVec.ofInt 32 v, 0, []⟩ else none :=
  assemble_oneLiteral (by rw [hm]; decide) (by rw [hm]; exact assembleCommand_mfrname32) r v

end Lines

/-! ## The obligation of the encoding family on the assembler -/

/-- Settles O7, form by form: an assembled line is an encoding, which decodes by `decode_encode`; each form's line has the
tokens of its operands, and its mnemonic's command encodes to the request. -/
theorem assembledLinesDecode : Obligations.AssembledLinesDecode := by
  refine ⟨fun line q h => ?_, fun r m o v h => assemble_oneByte h r v, fun r m o v w h => assemble_twoByte h r v w,
    fun r m o vs h => assemble_list h r vs, fun m o l hl h => assemble_text h hl,
    fun r m v hm => assemble_mfrname16 hm r v, fun r m v hm => assemble_mfrname32 hm r v⟩
  obtain ⟨i, rfl⟩ := exists_encode_of_assemble h
  exact ⟨i, decode_encode i, rfl⟩

end Sys2Proof.Machine

/-! ## Rules for a command that completes, and for the nibbles of a byte -/

namespace Sys2Proof.Machine

/-- A command that answers leaves its response held and changes nothing else (`10_state.md` R27,
`70_reset_and_hazards.md` R236). -/
theorem exec_eq_complete {i : Instr} {r : Response} (h : reply Config.built i = .next r) (s : State) :
    exec i s = .next (s.complete r) := by
  rw [exec_eq_answer, h, State.answer_next]

section Nibble

variable (b : Byte)

theorem toNat_div_16_lt : b.toNat / 16 < 16 := Nat.div_lt_of_lt_mul b.isLt

theorem toNat_highNibble : (highNibble b).toNat = b.toNat / 16 := by
  rw [highNibble, BitVec.extractLsb'_toNat, Nat.shiftRight_eq_div_pow]
  exact Nat.mod_eq_of_lt (toNat_div_16_lt b)

theorem toNat_lowNibble : (lowNibble b).toNat = b.toNat % 16 := by
  rw [lowNibble, BitVec.extractLsb'_toNat, Nat.shiftRight_zero]

theorem toNat_and_0x0F : (b &&& 0x0F#8).toNat = b.toNat % 16 := by
  rw [BitVec.toNat_and]
  exact Nat.and_two_pow_sub_one_eq_mod b.toNat 4

theorem toNat_ushiftRight_4_and_0x0F : ((b >>> 4) &&& 0x0F#8).toNat = b.toNat / 16 := by
  rw [toNat_and_0x0F, BitVec.toNat_ushiftRight, Nat.shiftRight_eq_div_pow]
  exact Nat.mod_eq_of_lt (toNat_div_16_lt b)

/-! A zero-extension is fixed by its value, whatever the width it comes from. -/

theorem setWidth_highNibble : (highNibble b).setWidth 32 = BitVec.ofNat 32 (b.toNat / 16) := by
  rw [← toNat_highNibble, BitVec.ofNat_toNat]

theorem setWidth_lowNibble : (lowNibble b).setWidth 32 = BitVec.ofNat 32 (b.toNat % 16) := by
  rw [← toNat_lowNibble, BitVec.ofNat_toNat]

theorem setWidth_highNibble_eq_and : (highNibble b).setWidth 32 = ((b >>> 4) &&& 0x0F#8).setWidth 32 := by
  rw [setWidth_highNibble, ← toNat_ushiftRight_4_and_0x0F, BitVec.ofNat_toNat]

theorem setWidth_lowNibble_eq_and : (lowNibble b).setWidth 32 = (b &&& 0x0F#8).setWidth 32 := by
  rw [setWidth_lowNibble, ← toNat_and_0x0F, BitVec.ofNat_toNat]

end Nibble

/-! ## The obligations of the nibble extractor's family -/

/-- Settles O30: HINIB's reply is the high nibble zero-extended, which is the masked shift of R100 and the
quotient by 16. -/
theorem hinibResult : Obligations.HinibResult := by
  refine ⟨fun q hq => ?_, fun b s => ?_⟩
  · simp [decode, hq, q.byteA_eq_setWidth]
  · have hexec : exec (.hinib b) s = .next (s.complete (.scalar ((highNibble b).setWidth 32))) :=
      exec_eq_complete rfl s
    refine ⟨toNat_div_16_lt b, ?_, ?_⟩
    · rw [hexec, setWidth_highNibble_eq_and]
      rfl
    · rw [hexec, setWidth_highNibble]
      rfl

/-- Settles O31: LONIB's reply is the low nibble zero-extended, which is the mask of R101 and the remainder by 16. -/
theorem lonibResult : Obligations.LonibResult := by
  refine ⟨fun q hq => ?_, fun b s => ?_⟩
  · simp [decode, hq, q.byteA_eq_setWidth]
  · have hexec : exec (.lonib b) s = .next (s.complete (.scalar ((lowNibble b).setWidth 32))) :=
      exec_eq_complete rfl s
    refine ⟨Nat.mod_lt _ (by decide), ?_, ?_⟩
    · rw [hexec, setWidth_lowNibble_eq_and]
      rfl
    · rw [hexec, setWidth_lowNibble]
      rfl

end Sys2Proof.Machine

/-! ## Rules for a byte result on the result bus, and for the replies of the bit unit -/

namespace Sys2Proof.Machine

/-- A byte result is held zero-extended, and nothing else changes (`10_state.md` R26). -/
theorem exec_eq_of_byte {i : Instr} {v : Byte} (h : reply Config.built i = .next (.byte v)) (s : State) :
    exec i s = .next { s with request := none, response := some ⟨.ok, v.setWidth 32, []⟩ } :=
  exec_eq_complete h s

section ByteResult

variable (v : Byte)

theorem toNat_setWidth_byte : (v.setWidth 32).toNat = v.toNat :=
  BitVec.toNat_setWidth_of_le (by decide)

theorem getLsbD_setWidth_byte (k : Nat) : (v.setWidth 32).getLsbD k = v.getLsbD k := by
  rw [BitVec.getLsbD_setWidth, Bool.and_eq_right_iff_imp]
  exact fun hk => decide_eq_true ((BitVec.lt_of_getLsbD hk).trans (by decide))

/-- `R[31:8]` of a byte result (`41_bit_unit.md` R118). -/
theorem extractLsb'_setWidth_byte : (v.setWidth 32).extractLsb' 8 24 = 0 := by
  refine BitVec.eq_of_getLsbD_eq fun k _ => ?_
  rw [BitVec.getLsbD_extractLsb', getLsbD_setWidth_byte, v.getLsbD_of_ge (8 + k) (Nat.le_add_right 8 k), Bool.and_false]
  exact BitVec.getLsbD_zero.symm

/-- A boolean in `R[0]` is a byte result too (`10_state.md` R26). -/
theorem Response.bool_eq_byte (x : Bool) : Response.bool x = .byte ((BitVec.ofBool x).setWidth 8) := by
  cases x <;> rfl

theorem boolWord_decide (P : Prop) [Decidable P] : boolWord (decide P) = if P then 1 else 0 := by
  simp only [boolWord, decide_eq_true_eq]

end ByteResult

section BitUnit

variable (c : Config) (b p n : Byte)

/-! The replies at the positions with a bit of the byte, and at those of 8 or more (`41_bit_unit.md` R110, R111, R116). -/

theorem reply_getbit_of_le (hp : p.toNat ≤ 7) : reply c (.getbit b p) = .next (.bool (b.getLsbD p.toNat)) := by
  simp only [reply, getbitReply, if_pos hp]

theorem reply_getbit_of_lt (hp : 7 < p.toNat) : reply c (.getbit b p) = .next (.bool (c.getBitHigh b p)) := by
  simp only [reply, getbitReply, if_neg (Nat.not_le.2 hp)]

theorem reply_setbit_of_le (hp : p.toNat ≤ 7) : reply c (.setbit b p) = .next (.byte (b ||| (1#8 <<< p.toNat))) := by
  simp only [reply, setbitReply, if_pos hp]

theorem reply_setbit_of_lt (hp : 7 < p.toNat) : reply c (.setbit b p) = .next (.byte (c.setBitHigh b p)) := by
  simp only [reply, setbitReply, if_neg (Nat.not_le.2 hp)]

/-- A shift at 8 bits leaves no bit for an amount of 8 or more, so the zero of R114 is the shift's own value. -/
theorem reply_shr : reply c (.shr b n) = .next (.byte (b >>> n.toNat)) := by
  by_cases hn : n.toNat ≤ 7
  · simp only [reply, shrReply, if_pos hn]
  · have hzero : b >>> n.toNat = 0 := BitVec.ushiftRight_eq_zero (Nat.not_le.1 hn)
    simp only [reply, shrReply, if_neg hn, hzero]

/-- As `reply_shr`, for the zero of R115. -/
theorem reply_shl : reply c (.shl b n) = .next (.byte (b <<< n.toNat)) := by
  by_cases hn : n.toNat ≤ 7
  · simp only [reply, shlReply, if_pos hn]
  · have hzero : b <<< n.toNat = 0 := BitVec.shiftLeft_eq_zero (Nat.not_le.1 hn)
    simp only [reply, shlReply, if_neg hn, hzero]

/-- Every command of the bit unit forms its result at 8 bits (`41_bit_unit.md` R118). -/
theorem exists_byte_of_bit_unit {i : Instr} (hi : i.unit = .bit) : ∃ v : Byte, reply c i = .next (.byte v) := by
  cases i with
  | getbit b p => exact ⟨_, congrArg _ (Response.bool_eq_byte _)⟩
  | setbit b p | mask b m | or b o | shr b n | shl b n => exact ⟨_, rfl⟩
  | _ => nomatch hi

/-! What the tests and the shifts mean, in arithmetic and bit by bit. -/

theorem getLsbD_eq_decide (k : Nat) : b.getLsbD k = decide (b.toNat / 2 ^ k % 2 = 1) :=
  Nat.testBit_eq_decide_div_mod_eq

theorem getLsbD_setBit {k p : Nat} (hk : k < 8) :
    (b ||| (1#8 <<< p)).getLsbD k = (decide (k = p) || b.getLsbD k) := by
  have hone : (1#8 <<< p).getLsbD k = decide (k = p) := by
    rw [← BitVec.twoPow_eq, BitVec.getLsbD_twoPow]
    by_cases hkp : k = p
    · simp [hkp, hkp ▸ hk]
    · simp [hkp, Ne.symm hkp]
  rw [BitVec.getLsbD_or, hone, Bool.or_comm]

theorem setWidth_ushiftRight (k : Nat) : (b >>> k).setWidth 32 = BitVec.ofNat 32 (b.toNat / 2 ^ k) := by
  rw [← Nat.shiftRight_eq_div_pow, ← BitVec.toNat_ushiftRight, BitVec.ofNat_toNat]

theorem setWidth_shiftLeft (k : Nat) : (b <<< k).setWidth 32 = BitVec.ofNat 32 (b.toNat * 2 ^ k % 256) := by
  rw [← Nat.shiftLeft_eq, ← BitVec.ofNat_toNat, BitVec.toNat_shiftLeft]

end BitUnit

/-! ## The obligations of the bit unit's family -/

/-- Settles O33, above and below position 8: the bit GETBIT tests is the parity of `b / 2^p`. -/
theorem getbitResult : Obligations.GetbitResult := by
  refine ⟨fun q hq => ?_, fun b p s => ?_⟩
  · simp [decode, hq, q.byteA_eq_setWidth]
  · by_cases hp : p.toNat ≤ 7
    · rw [exec_eq_complete (reply_getbit_of_le _ b p hp), if_pos hp, ← boolWord_decide, ← getLsbD_eq_decide]
      rfl
    · rw [exec_eq_complete (reply_getbit_of_lt _ b p (Nat.not_le.1 hp)), if_neg hp]
      rfl

/-- Settles O34, above and below position 8: below it `1 << p` has the one bit `p`. -/
theorem setbitResult : Obligations.SetbitResult := by
  refine ⟨fun q hq => ?_, fun b p s => ?_⟩
  · simp [decode, hq, q.byteA_eq_setWidth]
  · by_cases hp : p.toNat ≤ 7
    · exact ⟨_, exec_eq_of_byte (reply_setbit_of_le _ b p hp) s, fun _ => ⟨rfl, fun k hk => getLsbD_setBit b hk⟩,
        fun hlt => absurd hp (Nat.not_le.2 hlt)⟩
    · exact ⟨_, exec_eq_of_byte (reply_setbit_of_lt _ b p (Nat.not_le.1 hp)) s, fun hle => absurd hle hp, fun _ => rfl⟩

/-- Settles O35: the two replies above position 7, under any configuration. -/
theorem highPositionsAreOpen : Obligations.HighPositionsAreOpen :=
  fun c b p hp => ⟨reply_getbit_of_lt c b p hp, reply_setbit_of_lt c b p hp⟩

/-- Settles O36: MASK's reply is the AND, which is commutative. -/
theorem maskResult : Obligations.MaskResult := by
  refine ⟨fun q hq => ?_, fun b m s => ?_⟩
  · simp [decode, hq, q.byteA_eq_setWidth]
  · have hexec (x y : Byte) : exec (.mask x y) s =
        .next { s with request := none, response := some ⟨.ok, (x &&& y).setWidth 32, []⟩ } := exec_eq_of_byte rfl s
    exact ⟨hexec b m, by rw [hexec, hexec, BitVec.and_comm]⟩

/-- Settles O37: OR's reply is the OR at 8 bits, and zero-extending it changes neither its value nor a bit. -/
theorem orResult : Obligations.OrResult := by
  refine ⟨fun q hq => ?_, fun b o s => ⟨(b ||| o).setWidth 32, ?_, fun k => ?_, exec_eq_of_byte rfl s⟩⟩
  · simp [decode, hq, q.byteA_eq_setWidth]
  · rw [toNat_setWidth_byte]
    exact (b ||| o).isLt
  · rw [getLsbD_setWidth_byte, BitVec.getLsbD_or]

/-- Settles O38: SHR's reply is the shift at 8 bits, which is the quotient by `2^n`, and zero from 8 on. -/
theorem shrResult : Obligations.ShrResult := by
  refine ⟨fun q hq => ?_, fun b n s => ?_⟩
  · simp [decode, hq, q.byteA_eq_setWidth]
  · rw [exec_eq_of_byte (reply_shr _ b n)]
    refine ⟨by rw [setWidth_ushiftRight], fun hn => ?_⟩
    rw [BitVec.ushiftRight_eq_zero hn]
    rfl

/-- Settles O39: SHL's reply is the shift at 8 bits, which is the product with `2^n` modulo 256, and zero from 8 on. -/
theorem shlResult : Obligations.ShlResult := by
  refine ⟨fun q hq => ?_, fun b n s => ?_⟩
  · simp [decode, hq, q.byteA_eq_setWidth]
  · rw [exec_eq_of_byte (reply_shl _ b n)]
    refine ⟨by rw [setWidth_shiftLeft], fun hn => ?_⟩
    rw [BitVec.shiftLeft_eq_zero hn]
    rfl

/-- Settles O40: each reply is a byte, and a byte leaves `R[31:8]` zero. -/
theorem bitUnitResultsAreBytes : Obligations.BitUnitResultsAreBytes := by
  intro c i hi
  obtain ⟨v, hv⟩ := exists_byte_of_bit_unit c hi
  exact ⟨v.setWidth 32, hv, extractLsb'_setWidth_byte v⟩

end Sys2Proof.Machine

/-! ## Rules for a sequence result, and for the characters of a hex string -/

namespace Sys2Proof.Machine

/-- A sequence result comes with `R = 0`, and nothing else changes (`10_state.md` R26). -/
theorem exec_eq_of_seq {i : Instr} {t : List Byte} (h : reply Config.built i = .next (.seq t)) (s : State) :
    exec i s = .next { s with request := none, response := some ⟨.ok, 0, t⟩ } :=
  exec_eq_complete h s

/-! A hex digit as the code of R140, for any nibble and for the two of a byte. -/

theorem hexChar_eq_ofNat (n : Nibble) :
    hexChar n = BitVec.ofNat 8 (if n.toNat < 10 then 48 + n.toNat else 55 + n.toNat) :=
  (apply_ite (BitVec.ofNat 8) _ _ _).symm

theorem hexPair_eq_ofNat (b : Byte) : hexPair b =
    [BitVec.ofNat 8 (if b.toNat / 16 < 10 then 48 + b.toNat / 16 else 55 + b.toNat / 16),
      BitVec.ofNat 8 (if b.toNat % 16 < 10 then 48 + b.toNat % 16 else 55 + b.toNat % 16)] := by
  rw [hexPair, hexChar_eq_ofNat, hexChar_eq_ofNat, toNat_highNibble, toNat_lowNibble]

/-! Where a byte's characters stand, and a pair of characters' byte (`20_memory.md` R42, R43). -/

theorem getElem?_hexEncode {l : List Byte} {i : Nat} {x : Byte} (hx : l[i]? = some x) :
    (hexEncode l)[2 * i]? = some (hexChar (highNibble x)) ∧
      (hexEncode l)[2 * i + 1]? = some (hexChar (lowNibble x)) := by
  induction i generalizing l with
  | zero =>
    match l with
    | b :: rest =>
      cases hx
      exact ⟨rfl, rfl⟩
  | succ i ih =>
    match l with
    | b :: rest => exact ih (l := rest) hx

theorem getElem?_hexDecode {l : List Byte} {i : Nat} {x y : Byte} (hx : l[2 * i]? = some x)
    (hy : l[2 * i + 1]? = some y) : (hexDecode l)[i]? = some ((hexVal x <<< 4) ||| hexVal y) := by
  induction i generalizing l with
  | zero =>
    match l with
    | hi :: lo :: rest =>
      cases hx
      cases hy
      rfl
  | succ i ih =>
    match l with
    | hi :: lo :: rest => exact ih (l := rest) hx hy

section HexReply

variable {c : Config} {l : List Byte}

/-! The replies of HEXENC within its capacity and of HEXDEC in its three cases (`42_hex.md` R146 to R149). -/

theorem reply_hexenc_of_fits (hl : c.fits (2 * l.length) = true) :
    reply c (.hexenc l) = .next (.seq (hexEncode l)) := if_pos hl

/-- The length is tested before the characters (R149). -/
theorem reply_hexdec_of_odd (hl : l.length % 2 = 1) : reply c (.hexdec l) = .next (.error .eHexlen) := if_pos hl

theorem reply_hexdec_of_even (hl : l.length % 2 = 0) :
    reply c (.hexdec l) = if l.all isHex then .next (.seq (hexDecode l)) else .fault .hexBadChar :=
  if_neg (by rw [hl]; decide)

theorem reply_hexdec_of_isHex (hl : l.length % 2 = 0) (hhex : ∀ x ∈ l, isHex x = true) :
    reply c (.hexdec l) = .next (.seq (hexDecode l)) := by
  rw [reply_hexdec_of_even hl, if_pos (List.all_eq_true.2 hhex)]

theorem reply_hexdec_of_not_isHex (hl : l.length % 2 = 0) (hbad : ∃ x ∈ l, isHex x = false) :
    reply c (.hexdec l) = .fault .hexBadChar := by
  have hall : l.all isHex = false := List.all_eq_false.2 (by simpa only [Bool.not_eq_true] using hbad)
  rw [reply_hexdec_of_even hl, hall, if_neg Bool.false_ne_true]

end HexReply

/-! ## The obligations of the hex family on the three commands -/

/-- Settles O45: HEXB's reply is the byte's two characters, written out as the codes of R140. -/
theorem hexbResult : Obligations.HexbResult := by
  refine ⟨fun q hq => ?_, fun b s => ?_⟩
  · simp [decode, hq, q.byteA_eq_setWidth]
  · rw [← hexPair_eq_ofNat]
    exact exec_eq_of_seq rfl s

/-- Settles O46: within its capacity HEXENC's reply is the encoded sequence, whose characters stand where
`getElem?_hexEncode` says. -/
theorem hexencResult : Obligations.HexencResult := by
  refine ⟨fun q hq => ?_, fun l s hl => ?_, fun c l hl => reply_hexenc_eq_refused hl⟩
  · simp [decode, hq]
  · exact ⟨hexEncode l, exec_eq_of_seq (reply_hexenc_of_fits hl) s, length_hexEncode l,
      fun i x hx => getElem?_hexEncode hx⟩

/-- Settles O47, in HEXDEC's three cases: by the parity of the length, and on an even one by the characters. -/
theorem hexdecResult : Obligations.HexdecResult := by
  refine ⟨fun q hq => ?_, fun l s hl hhex => ?_, fun l s hl => ?_, fun l s hl hbad => ?_⟩
  · simp [decode, hq]
  · exact ⟨hexDecode l, exec_eq_of_seq (reply_hexdec_of_isHex hl hhex) s, length_hexDecode l,
      fun i x y hx hy => getElem?_hexDecode hx hy⟩
  · exact exec_eq_complete (reply_hexdec_of_odd hl) s
  · rw [exec_eq_answer, reply_hexdec_of_not_isHex hl hbad]
    rfl

end Sys2Proof.Machine

/-! ## Rules for a manufacturer code packed, unpacked and narrowed, and for the extension bit -/

namespace Sys2Proof.Machine

section Pack

variable (x y z : Byte)

/-- The range of the sum, from three codes 0 to three codes 255 (`43_manufacturer.md` R178). -/
theorem packSum_mem_range : -67648 ≤ packSum x y z ∧ packSum x y z ≤ 201887 := by
  have hx : x.toNat < 256 := x.isLt
  have hy : y.toNat < 256 := y.isLt
  have hz : z.toNat < 256 := z.isLt
  unfold packSum
  omega

/-- An integer cut to a 16-bit code and zero-extended is its remainder modulo 2^16 (`43_manufacturer.md` R178). -/
theorem setWidth_ofInt_code (v : Int) :
    (BitVec.ofInt 16 v).setWidth 32 = BitVec.ofNat 32 (v % 65536).toNat := by
  have hcode : (BitVec.ofInt 16 v).toNat = (v % 65536).toNat := BitVec.toNat_ofInt v
  rw [← hcode, BitVec.ofNat_toNat]

/-- MFRPACK's one error (`60_exceptions.md` R204). -/
theorem reply_mfrpack_of_length_ne (c : Config) {l : List Byte} (hl : l.length ≠ 3) :
    reply c (.mfrpack l) = .next (.error .eMfrlen) := by
  match l with
  | [] | [_] | [_, _] | _ :: _ :: _ :: _ :: _ => rfl
  | [_, _, _] => exact absurd rfl hl

end Pack

section Unpack

variable {c : Config} {x : Code16}

/-- The division and the remainders of R171, on the signed value they are stated for. -/
theorem unpackNat_eq_ofInt (hx : 0 ≤ x.toInt) :
    unpackNat x.toNat = [BitVec.ofInt 8 (64 + x.toInt / 1024), BitVec.ofInt 8 (64 + x.toInt % 1024 / 32),
      BitVec.ofInt 8 (64 + x.toInt % 32)] := by
  have hvalue : x.toInt = x.toNat := BitVec.toInt_eq_toNat_of_lt (BitVec.toInt_pos_iff.1 hx)
  rw [hvalue]
  rfl

/-- A code is below 2^15, so each field of a non-negative one has 5 bits (`43_manufacturer.md` R172). -/
theorem code_fields_le (x : Code16) : x.toInt / 1024 ≤ 31 ∧ x.toInt % 1024 / 32 ≤ 31 ∧ x.toInt % 32 ≤ 31 := by
  have hx : 2 * x.toInt < 65536 := BitVec.two_mul_toInt_lt
  omega

theorem reply_mfrname16_of_nonneg (hx : 0 ≤ x.toInt) :
    reply c (.mfrname16 x) = .next (.seq (unpackNat x.toNat)) := by
  simp only [reply, mfrname16Reply, mfrName, if_pos hx]

/-- The OPEN codes of a negative code (`43_manufacturer.md` R177). -/
theorem reply_mfrname16_of_neg (hx : x.toInt < 0) :
    reply c (.mfrname16 x) =
      .next (.seq [(c.mfrNameNeg x).1, (c.mfrNameNeg x).2.1, (c.mfrNameNeg x).2.2]) := by
  simp only [reply, mfrname16Reply, mfrName, if_neg (Int.not_le.2 hx)]

/-- MFRNAME32 is MFRNAME16 after the narrowing, on negative codes too (`43_manufacturer.md` R175). -/
theorem reply_mfrname32 (w : Word) : reply c (.mfrname32 w) = reply c (.mfrname16 (narrow16 w)) := rfl

/-- The answer is three codes for every code, the OPEN ones among them (`43_manufacturer.md` R171, R177). -/
theorem exists_reply_mfrname16 (c : Config) (x : Code16) :
    ∃ t0 t1 t2 : Byte, reply c (.mfrname16 x) = .next (.seq [t0, t1, t2]) := by
  obtain ⟨t0, t1, t2, ht⟩ := List.length_eq_three.1 (length_mfrName c x)
  exact ⟨t0, t1, t2, by simp only [reply, mfrname16Reply, ht]⟩

/-- The low half of a word is its signed value modulo 2^16, read as a 16-bit pattern (`43_manufacturer.md` R176). -/
theorem narrow16_eq_ofInt (w : Word) : narrow16 w = BitVec.ofInt 16 w.toInt :=
  (BitVec.signExtend_eq_setWidth_of_le w (by decide)).symm

end Unpack

section ExtensionBit

variable (b : Byte)

theorem and_0x80_beq_0x80 : (b &&& 0x80#8 == 0x80#8) = b.getLsbD 7 := by
  have hand : b &&& 0x80#8 = if b.getLsbD 7 then 0x80#8 else 0#8 := BitVec.and_twoPow b 7
  rw [hand]
  cases b.getLsbD 7 <;> rfl

/-- The mask form of R180 is the test of bit 7 (`43_manufacturer.md` R185). -/
theorem reply_extbit (c : Config) : reply c (.extbit b) = .next (.bool (b.getLsbD 7)) := by
  simp only [reply, extbitReply, and_0x80_beq_0x80]

/-- The top bit of a byte says whether the byte is in the upper half of its range. -/
theorem getLsbD_seven : b.getLsbD 7 = decide (128 ≤ b.toNat) :=
  b.msb_eq_getLsbD_last.symm.trans b.msb_eq_decide

end ExtensionBit

/-! ## The obligations of the manufacturer family on the four commands -/

/-- Settles O52: on three codes the sum is `packSum`, cut to its remainder modulo 2^16; every other length is the
error. -/
theorem mfrpackResult : Obligations.MfrpackResult := by
  refine ⟨fun q hq => ?_, fun x y z s => ?_, fun l s hl => ?_⟩
  · simp [decode, hq]
  · obtain ⟨hlo, hhi⟩ := packSum_mem_range x y z
    refine ⟨packSum x y z, rfl, hlo, hhi, ?_⟩
    rw [← setWidth_ofInt_code]
    exact exec_eq_complete (r := .code (BitVec.ofInt 16 (packSum x y z))) rfl s
  · exact exec_eq_complete (reply_mfrpack_of_length_ne _ hl) s

/-- Settles O53, by the sign of the code: the fields of a non-negative one, the OPEN codes of a negative one. -/
theorem mfrname16Result : Obligations.Mfrname16Result := by
  refine ⟨fun q hq => ?_, fun x s => ⟨fun hx => ⟨?_, code_fields_le x⟩, fun hx => ?_⟩⟩
  · simp [decode, hq, q.codeA_eq_setWidth]
  · rw [← unpackNat_eq_ofInt hx]
    exact exec_eq_of_seq (reply_mfrname16_of_nonneg hx) s
  · exact exec_eq_of_seq (reply_mfrname16_of_neg hx) s

/-- Settles O54: MFRNAME32's answer is MFRNAME16's on the narrowed word, which is three codes. -/
theorem mfrname32Result : Obligations.Mfrname32Result := by
  refine ⟨fun q hq => ?_, fun w s => ?_⟩
  · simp [decode, hq]
  · obtain ⟨t0, t1, t2, ht⟩ := exists_reply_mfrname16 Config.built (narrow16 w)
    refine ⟨t0, t1, t2, exec_eq_of_seq ((reply_mfrname32 w).trans ht) s, ?_, BitVec.toNat_ofInt _⟩
    rw [← narrow16_eq_ofInt, exec_eq_answer, exec_eq_answer, reply_mfrname32]

/-- Settles O59: the mask test is bit 7, which is set exactly in a byte of 128 or more. -/
theorem extbitResult : Obligations.ExtbitResult := by
  refine ⟨fun q hq => ?_, fun b s => ?_⟩
  · simp [decode, hq, q.byteA_eq_setWidth]
  · rw [exec_eq_complete (reply_extbit b _), ← boolWord_decide, ← getLsbD_seven]
    rfl

/-- Settles O55: the word narrows to the negative code, so both commands give its OPEN codes. -/
theorem negativeCodesAreOpen : Obligations.NegativeCodesAreOpen := by
  rintro c x w hx rfl
  exact ⟨reply_mfrname16_of_neg hx, reply_mfrname32 w⟩

end Sys2Proof.Machine

/-! ## Rules for the checks of a request: the command each sequence opcode selects, the commands that complete, and what an
error response says of its request -/

namespace Sys2Proof

/-- The opcode of a decoded command is its request's (`30_encoding.md` R62). -/
theorem opcode_of_decode {q : Request} {i : Instr} (h : decode q = .instr i) : i.opcode = q.opc :=
  congrArg Request.opc (encode_of_decode h)

/-- A command that reads the sequence carries the whole of it (`30_encoding.md` R64). -/
theorem seqOperand_of_decode_of_readsSeq {q : Request} {i : Instr} (h : decode q = .instr i)
    (hreads : readsSeq i.opcode = true) : i.seqOperand = q.s :=
  (congrArg Request.s (encode_of_decode h)).trans (if_pos (opcode_of_decode h ▸ hreads))

/-- A request whose opcode is not illegal decodes to a command. -/
theorem exists_instr_of_decode_ne_illegal {q : Request} (h : decode q ≠ .illegal q.opc) : ∃ i, decode q = .instr i := by
  cases hd : decode q with
  | instr i => exact ⟨i, rfl⟩
  | illegal opc =>
    obtain rfl := Machine.decode_illegal hd
    exact absurd hd h

namespace Machine

section Outcome

variable {c : Config} {q : Request} {l : List Byte}

/-! The three commands with a check of their own, by their opcodes (`60_exceptions.md` R207). -/

theorem transact_of_opc_hexenc (hq : q.wellFormed c = true) (hopc : q.opc = 0x31#8) :
    transact c q = reply c (.hexenc q.s) :=
  transact_eq_reply hq (by simp [decode, hopc])

theorem transact_of_opc_hexdec (hq : q.wellFormed c = true) (hopc : q.opc = 0x32#8) :
    transact c q = reply c (.hexdec q.s) :=
  transact_eq_reply hq (by simp [decode, hopc])

theorem transact_of_opc_mfrpack (hq : q.wellFormed c = true) (hopc : q.opc = 0x40#8) :
    transact c q = reply c (.mfrpack q.s) :=
  transact_eq_reply hq (by simp [decode, hopc])

/-- MFRPACK completes on every three codes, whatever they are (`43_manufacturer.md` R179). -/
theorem exists_ok_reply_mfrpack (hl : l.length = 3) : ∃ r, reply c (.mfrpack l) = .next r ∧ r.status = .ok := by
  obtain ⟨x, y, z, rfl⟩ := List.length_eq_three.1 hl
  exact ⟨_, rfl, rfl⟩

end Outcome

/-! ## The obligations of the exceptions family -/

/-- Settles O28, command by command: only HEXENC has a capacity to keep, and the rest answer without a check. -/
theorem totalCommandsComplete : Obligations.TotalCommandsComplete := by
  intro c i hdec hpack hfits
  cases i with
  | hexdec l => exact absurd rfl (hdec l)
  | mfrpack l => exact absurd rfl (hpack l)
  | hexenc l => exact ⟨_, reply_hexenc_of_fits (hfits l rfl), rfl⟩
  | hinib b | lonib b | getbit b p | setbit b p | mask b m | or b o | shr b n | shl b n | hexb b | mfrname16 x
  | mfrname32 w | extbit b => exact ⟨_, rfl, rfl⟩

/-- A request for one of the thirteen commands completes where its sequence fits, and HEXENC's result too. -/
theorem exists_ok_transact_of_total {c : Config} {q : Request} (hq : q.wellFormed c = true)
    (hlegal : decode q ≠ .illegal q.opc) (hdec : q.opc ≠ 0x32#8) (hpack : q.opc ≠ 0x40#8)
    (hfits : q.opc = 0x31#8 → c.fits (2 * q.s.length) = true) : ∃ r, transact c q = .next r ∧ r.status = .ok := by
  obtain ⟨i, hi⟩ := exists_instr_of_decode_ne_illegal hlegal
  rw [transact_eq_reply hq hi]
  refine totalCommandsComplete c i ?_ ?_ ?_ <;> rintro l rfl
  · exact hdec (opcode_of_decode hi).symm
  · exact hpack (opcode_of_decode hi).symm
  · have hs : l = q.s := seqOperand_of_decode_of_readsSeq hi rfl
    exact hs ▸ hfits (opcode_of_decode hi).symm

/-- Settles O22, check by check. A request that passes them all completes: HEXDEC and MFRPACK because their own checks have
passed, every other command by `totalCommandsComplete`. -/
theorem checkOrder : Obligations.CheckOrder := by
  intro c q
  split_ifs with hcap hill hodd hlen hbad
  · cases hq : q.wellFormed c with
    | false => exact transact_eq_refused hq
    | true =>
      obtain ⟨hopc, htwice⟩ := hcap.resolve_left fun hlong => nomatch hlong.symm.trans hq
      rw [transact_of_opc_hexenc hq hopc, reply_hexenc_eq_refused htwice]
  all_goals
    obtain ⟨hfits, htwice⟩ := not_or.1 hcap
    have hq : q.wellFormed c = true := Bool.eq_true_of_not_eq_false hfits
  · exact transact_eq_error hq hill
  · obtain ⟨hopc, hodd⟩ := hodd
    rw [transact_of_opc_hexdec hq hopc, reply_hexdec_of_odd hodd]
    rfl
  · obtain ⟨hopc, hlen⟩ := hlen
    rw [transact_of_opc_mfrpack hq hopc, reply_mfrpack_of_length_ne c hlen]
    rfl
  · obtain ⟨hopc, hbad⟩ := hbad
    have heven : q.s.length % 2 = 0 := Nat.mod_two_ne_one.1 fun h => hodd ⟨hopc, h⟩
    rw [transact_of_opc_hexdec hq hopc, reply_hexdec_of_not_isHex heven hbad]
  · by_cases hdec : q.opc = 0x32#8
    · have heven : q.s.length % 2 = 0 := Nat.mod_two_ne_one.1 fun h => hodd ⟨hdec, h⟩
      have hhex : ∀ x ∈ q.s, isHex x = true :=
        fun x hx => Bool.eq_true_of_not_eq_false fun h => hbad ⟨hdec, x, hx, h⟩
      exact ⟨_, (transact_of_opc_hexdec hq hdec).trans (reply_hexdec_of_isHex heven hhex), rfl⟩
    by_cases hpack : q.opc = 0x40#8
    · rw [transact_of_opc_mfrpack hq hpack]
      exact exists_ok_reply_mfrpack (not_not.1 fun h => hlen ⟨hpack, h⟩)
    · exact exists_ok_transact_of_total hq hill hdec hpack fun hopc =>
        Bool.eq_true_of_not_eq_false fun h => htwice ⟨hopc, h⟩

/-- What an error response says of its request, read off the chain of checks (`60_exceptions.md` R207): the sequence fits,
and the opcode and the length are those of its one cause (R200). -/
theorem error_of_transact {c : Config} {q : Request} {r : Response} (h : transact c q = .next r) (hr : r.status ≠ .ok) :
    c.fits q.s.length = true ∧
      ((decode q = .illegal q.opc ∧ r.status = .eIllop) ∨
        (q.opc = 0x32#8 ∧ q.s.length % 2 = 1 ∧ r.status = .eHexlen) ∨
        (q.opc = 0x40#8 ∧ q.s.length ≠ 3 ∧ r.status = .eMfrlen)) := by
  have hchain := checkOrder c q
  rw [h] at hchain
  split_ifs at hchain with hcap hill hodd hlen hbad
  all_goals
    have hfits : c.fits q.s.length = true := Bool.eq_true_of_not_eq_false fun h => hcap (.inl h)
  · cases hchain
    exact ⟨hfits, .inl ⟨hill, rfl⟩⟩
  · cases hchain
    obtain ⟨hopc, hodd⟩ := hodd
    exact ⟨hfits, .inr (.inl ⟨hopc, hodd, rfl⟩)⟩
  · cases hchain
    obtain ⟨hopc, hlen⟩ := hlen
    exact ⟨hfits, .inr (.inr ⟨hopc, hlen, rfl⟩)⟩
  · obtain ⟨r', hr', hok⟩ := hchain
    cases hr'
    exact absurd hok hr

/-- Settles O24: of the three causes of an error, only HEXDEC's gives this status. -/
theorem hexLengthErrorExactly : Obligations.HexLengthErrorExactly := by
  refine fun c q => ⟨fun ⟨r, h, hr⟩ => ?_, fun ⟨hfits, hopc, hodd⟩ => ?_⟩
  · obtain ⟨hfits, ⟨-, hill⟩ | ⟨hopc, hodd, -⟩ | ⟨-, -, hmfr⟩⟩ := error_of_transact h (by simp [hr])
    · nomatch hr.symm.trans hill
    · exact ⟨hfits, hopc, hodd⟩
    · nomatch hr.symm.trans hmfr
  · exact ⟨_, (transact_of_opc_hexdec hfits hopc).trans (reply_hexdec_of_odd hodd), rfl⟩

/-- Settles O25: of the three causes of an error, only MFRPACK's gives this status. -/
theorem mfrLengthErrorExactly : Obligations.MfrLengthErrorExactly := by
  refine fun c q => ⟨fun ⟨r, h, hr⟩ => ?_, fun ⟨hfits, hopc, hlen⟩ => ?_⟩
  · obtain ⟨hfits, ⟨-, hill⟩ | ⟨-, -, hhex⟩ | ⟨hopc, hlen, -⟩⟩ := error_of_transact h (by simp [hr])
    · nomatch hr.symm.trans hill
    · nomatch hr.symm.trans hhex
    · exact ⟨hfits, hopc, hlen⟩
  · exact ⟨_, (transact_of_opc_mfrpack hfits hopc).trans (reply_mfrpack_of_length_ne c hlen), rfl⟩

/-- Settles O26: of the three causes of an error, only an illegal opcode gives this status, and the illegal opcodes are
those that are none of the fifteen. -/
theorem illegalOpcodeErrorExactly : Obligations.IllegalOpcodeErrorExactly := by
  intro c q
  rw [← decode_eq_illegal_iff]
  refine ⟨fun ⟨r, h, hr⟩ => ?_, fun ⟨hfits, hill⟩ => ⟨_, transact_eq_error hfits hill, rfl⟩⟩
  obtain ⟨hfits, ⟨hill, -⟩ | ⟨-, -, hhex⟩ | ⟨-, -, hmfr⟩⟩ := error_of_transact h (by simp [hr])
  · exact ⟨hfits, hill⟩
  · nomatch hr.symm.trans hhex
  · nomatch hr.symm.trans hmfr

/-- An error response carries its status and nothing else (`60_exceptions.md` R203). -/
theorem eq_error_of_transact {c : Config} {q : Request} {r : Response} (h : transact c q = .next r)
    (hr : r.status ≠ .ok) : r = .error r.status := by
  obtain ⟨hempty, -⟩ := wf_of_transact h
  obtain ⟨hzero, hnil⟩ := hempty hr
  rw [Response.error, ← hzero, ← hnil]

/-- Settles O27: the step holds the response of R20 and changes nothing else, and an error response is its status alone. -/
theorem errorsCarryNothing : Obligations.ErrorsCarryNothing := by
  refine ⟨fun c q r h hr => eq_error_of_transact h hr, fun s q r hq hi h hr => ?_⟩
  rw [step_eq_answer_of_silent hq hi, h, eq_error_of_transact h hr]
  rfl

end Machine

end Sys2Proof

/-! ## The state after reset -/

namespace Sys2Proof.Machine

/-- With no response held, the invariant asks only for the form of what was delivered. -/
theorem State.inv_of_response_eq_none {c : Config} {s : State} (hnone : s.response = none)
    (hdelivered : ∀ r ∈ s.delivered, r.wf c) : s.Inv c := by
  refine ⟨.inr hnone, fun r hr => ?_, hdelivered⟩
  exact nomatch hnone.symm.trans hr

/-- The block is ready to accept a request (`70_reset_and_hazards.md` R230). -/
theorem State.reset_idle : State.reset.idle := ⟨rfl, rfl, rfl⟩

/-! ## The obligations of the reset family -/

/-- Settles O11: the fields that `idle` speaks of, and `idle` itself. -/
theorem resetHoldsNothing : Obligations.ResetHoldsNothing := by
  obtain ⟨hrequest, hresponse, hwaiting⟩ := State.reset_idle
  exact ⟨hrequest, hresponse, hwaiting, State.reset_idle⟩

/-- Settles O18: a reset block holds no response, and its host has collected none. -/
theorem portInvariantAtReset : Obligations.PortInvariantAtReset := by
  obtain ⟨-, hnone, -⟩ := State.reset_idle
  exact State.inv_of_response_eq_none hnone fun _ hr => nomatch hr

end Sys2Proof.Machine

/-! ## Rules for a step on a reset, on a read of an empty port, and with a response held -/

namespace Sys2Proof.Machine

section PortActs

variable {s : State} {r : Response} {rest : List HostAct}

theorem step_eq_cancel_of_reset (hi : s.incoming = .reset :: rest) :
    step s = .next (s.cancel.setIncoming rest) := by
  simp [step, State.portStep, hi]

/-- Nothing is held and nothing is to come, so there is nothing to wait for (`93_implementation_defined.md` I9). -/
theorem step_eq_refused_of_collect (hs : s.idle) (hi : s.incoming = .collect :: rest) :
    step s = .refused .noResponse := by
  obtain ⟨hrequest, hresponse, hwaiting⟩ := hs
  simp [step, State.portStep, hi, State.hostCollect, hrequest, hresponse, hwaiting]

theorem step_eq_fault_of_held (hq : s.request = none) (hr : s.response = some r) (hi : s.incoming = []) :
    step s = .fault .responseHeld := by
  simp [step, State.portStep, hi, State.hostSilent, hq, hr]

/-- A block that holds a response accepts nothing, so its turn does nothing (`20_memory.md` R54). -/
theorem State.blockTurn_eq_self_of_held (hq : s.request = none) (hr : s.response = some r) :
    s.blockTurn = .next s := by
  simp [State.blockTurn, hq, hr]

theorem step_eq_setIncoming_of_held (hq : s.request = none) (hr : s.response = some r)
    (hi : s.incoming = .wait :: rest) : step s = .next (s.setIncoming rest) := by
  have hturn : (s.setIncoming rest).blockTurn = .next (s.setIncoming rest) :=
    State.blockTurn_eq_self_of_held hq hr
  simp [step, State.portStep, hi, hturn]

end PortActs

/-! ## The remaining obligations on the port -/

/-- Settles O12: the step on a reset is `cancel`, which keeps only the host's side of the port. -/
theorem hostResetCancels : Obligations.HostResetCancels :=
  fun _ _ hi => step_eq_cancel_of_reset hi

/-- Settles O13: an idle port has nothing to read and nothing to wait for. -/
theorem earlyReadRefused : Obligations.EarlyReadRefused :=
  fun _ _ hs hi => step_eq_refused_of_collect hs hi

/-- Settles O14, by what the host does: silence is the stop of R236, and a pause is used up by a turn that does nothing. -/
theorem heldResponseWaits : Obligations.HeldResponseWaits :=
  fun _ _ hq hr => ⟨step_eq_fault_of_held hq hr, fun _ => step_eq_setIncoming_of_held hq hr⟩

/-- Settles O15: the step on a read with a response held is `deliver`. -/
theorem collectDelivers : Obligations.CollectDelivers :=
  fun _ _ _ hq hr hi => step_eq_deliver_of_collect hq hr hi

/-- Settles O16: the step on a command is `present`, which adds to the waiting requests alone. -/
theorem presentedRequestWaits : Obligations.PresentedRequestWaits :=
  fun _ _ _ hi => step_eq_present_of_command hi

/-- Settles O10: both steps answer with the outcome of R20, which is a function of the request, and an answer writes
nothing but the response. -/
theorem commandsAreIndependent : Obligations.CommandsAreIndependent := by
  intro s₁ s₂ s₁' q hq₁ hq₂ hi₁ hi₂ hstep
  rw [step_eq_answer_of_silent hq₁ hi₁, State.answer_eq_next] at hstep
  obtain ⟨r, hr, rfl⟩ := hstep
  refine ⟨rfl, ?_⟩
  rw [step_eq_answer_of_silent hq₂ hi₂, hr]
  rfl

end Sys2Proof.Machine

/-! ## Rules for two nibbles put together, and for a shift undone -/

namespace Sys2Proof.Machine

section Recombine

/-- Two nibbles put together by a shift and an OR, at any width of the result. -/
theorem shiftLeft_4_or_eq_setWidth_append (w : Nat) (n m : Nibble) :
    (n.setWidth w <<< 4) ||| m.setWidth w = (n ++ m).setWidth w := by
  refine BitVec.eq_of_getLsbD_eq fun k hk => ?_
  rw [BitVec.getLsbD_or, BitVec.getLsbD_shiftLeft, BitVec.getLsbD_setWidth, BitVec.getLsbD_setWidth,
    BitVec.getLsbD_setWidth, BitVec.getLsbD_append]
  by_cases h4 : k < 4
  · simp [h4, hk]
  · have hlow : m.getLsbD k = false := m.getLsbD_of_ge k (Nat.not_lt.1 h4)
    simp [h4, hk, hlow, Nat.lt_of_le_of_lt (Nat.sub_le k 4) hk]

theorem highNibble_append_lowNibble (b : Byte) : (highNibble b ++ lowNibble b : Byte) = b :=
  BitVec.extractLsb'_append_extractLsb' (w := 4)

theorem highNibble_append (n m : Nibble) : highNibble (n ++ m : Byte) = n := BitVec.extractLsb'_append_eq_left

theorem lowNibble_append (n m : Nibble) : lowNibble (n ++ m : Byte) = m := BitVec.extractLsb'_append_eq_right

/-- The recombination law (`40_nibble.md`), at any width of the result. -/
theorem nibbles_recombine (w : Nat) (b : Byte) :
    ((highNibble b).setWidth w <<< 4) ||| (lowNibble b).setWidth w = b.setWidth w := by
  rw [shiftLeft_4_or_eq_setWidth_append, highNibble_append_lowNibble]

/-- Reading `R[7:0]` of a result that was zero-extended to `R` is zero-extending it to a byte. -/
theorem setWidth_8_of_setWidth_32 {n : Nat} (v : BitVec n) : (v.setWidth 32).setWidth 8 = v.setWidth 8 :=
  BitVec.setWidth_setWidth_of_le v (by decide)

theorem setWidth_byte_and_0xFF (b : Byte) : b.setWidth 32 &&& 0xFF#32 = b.setWidth 32 := by
  have hmask : ((b.setWidth 32).setWidth 8).setWidth 32 = b.setWidth 32 &&& 0xFF#32 :=
    setWidth_setWidth_eq_and (by decide) (b.setWidth 32)
  rw [← hmask, setWidth_8_of_setWidth_32, BitVec.setWidth_eq]

end Recombine

section ShiftBack

variable (b : Byte) (k : Nat)

/-- The bits that leave at the top do not come back. -/
theorem shiftLeft_ushiftRight_eq_and : (b <<< k) >>> k = b &&& (0xFF#8 >>> k) := by
  refine BitVec.eq_of_getLsbD_eq fun i hi => ?_
  have hones : (0xFF#8).getLsbD (k + i) = decide (k + i < 8) := BitVec.getLsbD_allOnes
  rw [BitVec.getLsbD_ushiftRight, BitVec.getLsbD_shiftLeft, BitVec.getLsbD_and, BitVec.getLsbD_ushiftRight, hones]
  simp [Bool.and_comm]

/-- The bits that leave at the bottom do not come back. -/
theorem ushiftRight_shiftLeft_eq_and : (b >>> k) <<< k = b &&& (0xFF#8 <<< k) := BitVec.shiftLeft_ushiftRight

end ShiftBack

/-! ## The remaining obligations on the nibbles and the bit unit -/

/-- Settles O32: `nibbles_recombine` on the result bus, and at 8 bits through SHL and OR. -/
theorem nibblesRecombine : Obligations.NibblesRecombine := by
  intro c b
  refine ⟨(highNibble b).setWidth 32, (lowNibble b).setWidth 32, ((highNibble b).setWidth 8 <<< 4).setWidth 32,
    rfl, rfl, ?_, ?_, ?_⟩
  · rw [nibbles_recombine, setWidth_byte_and_0xFF]
  · rw [setWidth_8_of_setWidth_32, reply_shl]
    rfl
  · have hor (x y : Byte) : reply c (.or x y) = .next ⟨.ok, (x ||| y).setWidth 32, []⟩ := rfl
    rw [setWidth_8_of_setWidth_32, setWidth_8_of_setWidth_32, BitVec.setWidth_eq, hor, nibbles_recombine,
      BitVec.setWidth_eq]

/-- Settles O41: each clause is `getLsbD_setBit`, at the position set and at another. -/
theorem setThenGet : Obligations.SetThenGet := by
  intro c b p q hp hq
  refine ⟨b ||| (1#8 <<< p.toNat), reply_setbit_of_le c b p hp, ?_, fun hpq => ?_⟩
  · rw [reply_getbit_of_le _ _ _ hp, getLsbD_setBit b (Nat.lt_succ_of_le hp)]
    simp [Response.bool, Response.scalar, boolWord]
  · have hne : q.toNat ≠ p.toNat := fun h => hpq (BitVec.eq_of_toNat_eq h.symm)
    rw [reply_getbit_of_le _ _ _ hq, reply_getbit_of_le _ _ _ hq, getLsbD_setBit b (Nat.lt_succ_of_le hq),
      decide_eq_false hne, Bool.false_or]

/-- Settles O42: the replies are the shifts at 8 bits, whatever the amount; up to 7 each pair of them is a mask, and from 8
on nothing is left to shift back. -/
theorem shiftThereAndBack : Obligations.ShiftThereAndBack := by
  intro c b n
  refine ⟨b <<< n.toNat, b >>> n.toNat, reply_shl c b n, reply_shr c b n, fun _ => ⟨?_, ?_⟩, fun hn => ⟨?_, ?_⟩⟩
  · rw [reply_shr, shiftLeft_ushiftRight_eq_and]
    rfl
  · rw [reply_shl, ushiftRight_shiftLeft_eq_and]
    rfl
  · rw [reply_shr, BitVec.ushiftRight_eq_zero hn]
    rfl
  · rw [reply_shl, BitVec.shiftLeft_eq_zero hn]
    rfl

end Sys2Proof.Machine

/-! ## Rules for the hex alphabet, and for encoding and decoding as inverses -/

namespace Sys2Proof.Machine

section Alphabet

variable {x : Byte} {n : Nibble}

theorem inRange_iff {lo hi : Nat} : inRange lo hi x = true ↔ lo ≤ x.toNat ∧ x.toNat ≤ hi := by
  simp only [inRange, Bool.and_eq_true, decide_eq_true_eq]

/-- The three ranges of `42_hex.md` R142. -/
theorem isHex_iff : isHex x = true ↔
    (0x30 ≤ x.toNat ∧ x.toNat ≤ 0x39) ∨ (0x41 ≤ x.toNat ∧ x.toNat ≤ 0x46) ∨ (0x61 ≤ x.toNat ∧ x.toNat ≤ 0x66) := by
  simp only [isHex, Bool.or_eq_true, inRange_iff, or_assoc]

/-- Upper-casing as a number (`42_hex.md` R143). -/
theorem toNat_up (x : Byte) :
    (up x).toNat = if 0x61 ≤ x.toNat ∧ x.toNat ≤ 0x66 then x.toNat - 0x20 else x.toNat := by
  simp only [up, inRange_iff]
  split
  next h =>
    obtain ⟨hlo, -⟩ := h
    exact BitVec.toNat_sub_of_le (show 0x20 ≤ x.toNat from Nat.le_trans (by decide) hlo)
  next => rfl

theorem up_up (x : Byte) : up (up x) = up x := by
  refine BitVec.eq_of_toNat_eq ?_
  rw [toNat_up, toNat_up]
  split_ifs <;> omega

/-- Upper-casing leaves the 16 codes that the encoders write. -/
theorem up_range_of_isHex (h : isHex x = true) :
    (0x30 ≤ (up x).toNat ∧ (up x).toNat ≤ 0x39) ∨ (0x41 ≤ (up x).toNat ∧ (up x).toNat ≤ 0x46) := by
  rw [isHex_iff] at h
  rw [toNat_up]
  split <;> omega

theorem isHex_up (h : isHex x = true) : isHex (up x) = true :=
  isHex_iff.2 ((up_range_of_isHex h).imp_right .inl)

/-- The value of a hex digit (`42_hex.md` R143). -/
theorem toNat_hexVal (h : isHex x = true) :
    (hexVal x).toNat = if (up x).toNat ≤ 0x39 then (up x).toNat - 0x30 else (up x).toNat - 0x37 := by
  have hrange := up_range_of_isHex h
  simp only [hexVal, inRange_iff]
  split_ifs with hdigit hle hle
  · exact BitVec.toNat_sub_of_le (show 0x30 ≤ (up x).toNat by omega)
  · omega
  · omega
  · exact BitVec.toNat_sub_of_le (show 0x37 ≤ (up x).toNat by omega)

theorem hexVal_up (x : Byte) : hexVal (up x) = hexVal x := by
  rw [hexVal, hexVal, up_up]

/-- The branch form of `42_hex.md` R140 as a number. -/
theorem toNat_hexChar (n : Nibble) :
    (hexChar n).toNat = if n.toNat < 10 then 48 + n.toNat else 55 + n.toNat := by
  have hn : n.toNat < 16 := n.isLt
  rw [hexChar_eq_ofNat, BitVec.toNat_ofNat]
  split <;> omega

theorem hexChar_range (n : Nibble) :
    (0x30 ≤ (hexChar n).toNat ∧ (hexChar n).toNat ≤ 0x39) ∨
      (0x41 ≤ (hexChar n).toNat ∧ (hexChar n).toNat ≤ 0x46) := by
  have hn : n.toNat < 16 := n.isLt
  rw [toNat_hexChar]
  split <;> omega

theorem isHex_hexChar (n : Nibble) : isHex (hexChar n) = true :=
  isHex_iff.2 ((hexChar_range n).imp_right .inl)

theorem up_hexChar (n : Nibble) : up (hexChar n) = hexChar n := by
  have hrange := hexChar_range n
  refine BitVec.eq_of_toNat_eq ?_
  rw [toNat_up, if_neg (by omega)]

theorem hexVal_hexChar (n : Nibble) : hexVal (hexChar n) = n.setWidth 8 := by
  refine BitVec.eq_of_toNat_eq ?_
  rw [toNat_hexVal (isHex_hexChar n), up_hexChar, toNat_hexChar, BitVec.toNat_setWidth_of_le (by decide)]
  split_ifs <;> omega

/-- The hex codes are the digits' characters, up to the case of the letters. -/
theorem exists_up_eq_hexChar (h : isHex x = true) : ∃ n : Nibble, up x = hexChar n := by
  obtain hdigit | hletter := up_range_of_isHex h
  · refine ⟨BitVec.ofNat 4 ((up x).toNat - 48), BitVec.eq_of_toNat_eq ?_⟩
    rw [toNat_hexChar, BitVec.toNat_ofNat]
    split <;> omega
  · refine ⟨BitVec.ofNat 4 ((up x).toNat - 55), BitVec.eq_of_toNat_eq ?_⟩
    rw [toNat_hexChar, BitVec.toNat_ofNat]
    split <;> omega

/-- The arithmetic shift of `42_hex.md` R141 spreads the sign of `n - 10`: all ones exactly below 10. -/
theorem sshiftRight_31_sub_10 (n : Nibble) :
    (n.setWidth 32 - 10#32).sshiftRight 31 = if n.toNat < 10 then BitVec.allOnes 32 else 0 := by
  revert n
  decide

/-- The spread sign masks the 7 that lies between the two branches: it is taken off below 10, and stays from 10 on. -/
theorem toNat_hexCharBranchless (n : Nibble) : (hexCharBranchless n).toNat = (hexChar n).toNat := by
  have hn : n.toNat < 16 := n.isLt
  have hwide : (n.setWidth 32).toNat = n.toNat := BitVec.toNat_setWidth_of_le (by decide)
  rw [toNat_hexChar]
  simp only [hexCharBranchless, sshiftRight_31_sub_10]
  split
  · rw [BitVec.allOnes_and, BitVec.toNat_add, BitVec.toNat_add, hwide, show (-7#32).toNat = 4294967289 from rfl]
    simp only [BitVec.toNat_ofNat]
    omega
  · rw [show (0 : Word) &&& -7#32 = 0#32 from rfl, BitVec.add_zero, BitVec.toNat_add, hwide]
    simp only [BitVec.toNat_ofNat]
    omega

end Alphabet

section Inverse

variable {l : List Byte} {x : Byte}

/-- The byte of a pair of hex digits' characters. -/
theorem hexDecode_pair (n m : Nibble) : (hexVal (hexChar n) <<< 4) ||| hexVal (hexChar m) = n ++ m := by
  rw [hexVal_hexChar, hexVal_hexChar, shiftLeft_4_or_eq_setWidth_append]
  exact BitVec.setWidth_eq _

/-- Decoding undoes encoding, on every byte sequence. -/
theorem hexDecode_hexEncode (l : List Byte) : hexDecode (hexEncode l) = l := by
  induction l with
  | nil => rfl
  | cons b l ih => rw [hexEncode_cons, hexDecode, ih, hexDecode_pair, highNibble_append_lowNibble]

/-- What the encoder writes are digits' characters. -/
theorem exists_hexChar_of_mem_hexEncode (hx : x ∈ hexEncode l) : ∃ n : Nibble, x = hexChar n := by
  obtain ⟨b, -, hpair⟩ := List.mem_flatMap.1 hx
  obtain rfl | hlow := List.mem_cons.1 hpair
  · exact ⟨_, rfl⟩
  · exact ⟨_, List.mem_singleton.1 hlow⟩

theorem isHex_of_mem_hexEncode (hx : x ∈ hexEncode l) : isHex x = true := by
  obtain ⟨n, rfl⟩ := exists_hexChar_of_mem_hexEncode hx
  exact isHex_hexChar n

/-- The decoder reads its letters in uppercase (`42_hex.md` R143). -/
theorem hexDecode_map_up : ∀ l : List Byte, hexDecode (l.map up) = hexDecode l
  | [] | [_] => rfl
  | hi :: lo :: rest => by simp only [List.map_cons, hexDecode, hexVal_up, ← hexDecode_map_up rest]

/-- A string of hex codes is, in uppercase, the encoding of some bytes. -/
theorem exists_hexEncode_eq_map_up :
    ∀ l : List Byte, l.length % 2 = 0 → (∀ x ∈ l, isHex x = true) → ∃ t, hexEncode t = l.map up
  | [], _, _ => ⟨[], rfl⟩
  | [_], hl, _ => nomatch hl
  | hi :: lo :: rest, hl, hhex => by
    simp only [List.forall_mem_cons] at hhex
    obtain ⟨hhi, hlo, hrest⟩ := hhex
    obtain ⟨n, hn⟩ := exists_up_eq_hexChar hhi
    obtain ⟨m, hm⟩ := exists_up_eq_hexChar hlo
    obtain ⟨t, ht⟩ := exists_hexEncode_eq_map_up rest ((Nat.add_mod_right _ 2).symm.trans hl) hrest
    refine ⟨(n ++ m) :: t, ?_⟩
    rw [hexEncode_cons, highNibble_append, lowNibble_append, ht, List.map_cons, List.map_cons, hn, hm]

/-- Encoding undoes decoding, but for the case of the letters. -/
theorem hexEncode_hexDecode (hl : l.length % 2 = 0) (hhex : ∀ x ∈ l, isHex x = true) :
    hexEncode (hexDecode l) = l.map up := by
  obtain ⟨t, ht⟩ := exists_hexEncode_eq_map_up l hl hhex
  rw [← hexDecode_map_up, ← ht, hexDecode_hexEncode]

end Inverse

/-! ## The remaining obligations on the hex digits and strings -/

/-- Settles O43: the two forms of a digit's character as numbers. -/
theorem hexDigitForms : Obligations.HexDigitForms :=
  fun n => ⟨toNat_hexChar n, toNat_hexCharBranchless n⟩

/-- Settles O44: the ranges of R142, upper-casing and the values of R143, and the digits' own characters. -/
theorem hexAlphabet : Obligations.HexAlphabet :=
  ⟨fun _ => isHex_iff, toNat_up, fun _ => toNat_hexVal, hexVal_hexChar⟩

/-- Settles O48: what HEXENC writes has even length and only hex codes, so HEXDEC completes, and decodes it back. -/
theorem hexRoundTripBytes : Obligations.HexRoundTripBytes := by
  intro c l hl
  have heven : (hexEncode l).length % 2 = 0 := by rw [length_hexEncode, Nat.mul_mod_right]
  refine ⟨hexEncode l, reply_hexenc_of_fits hl, ?_⟩
  rw [transact_of_opc_hexdec (by rwa [Request.wellFormed, length_hexEncode]) rfl,
    reply_hexdec_of_isHex heven fun _ => isHex_of_mem_hexEncode, hexDecode_hexEncode]
  rfl

/-- Settles O49: the decoded list is half as long as the string, so it and its encoding fit where the string does. -/
theorem hexRoundTripString : Obligations.HexRoundTripString := by
  intro c h hfits heven hhex
  have htwice : c.fits (2 * (hexDecode h).length) = true := Config.fits_mono (by rw [length_hexDecode]; omega) hfits
  have honce : c.fits (hexDecode h).length = true := Config.fits_mono (by omega) htwice
  refine ⟨hexDecode h, ?_, ?_⟩
  · rw [transact_of_opc_hexdec (q := ⟨0x32, 0, 0, h⟩) hfits rfl, reply_hexdec_of_isHex heven hhex]
    rfl
  · rw [transact_of_opc_hexenc (q := ⟨0x31, 0, 0, hexDecode h⟩) honce rfl, reply_hexenc_of_fits htwice,
      hexEncode_hexDecode heven hhex]
    rfl

/-- Settles O50: the string in uppercase is again of even length and of hex codes, and decodes alike. -/
theorem hexCaseInsensitive : Obligations.HexCaseInsensitive := by
  intro c h heven hhex
  have heven' : (h.map up).length % 2 = 0 := by rwa [List.length_map]
  have hhex' : ∀ x ∈ h.map up, isHex x = true := List.forall_mem_map.2 fun x hx => isHex_up (hhex x hx)
  refine ⟨hexDecode h, reply_hexdec_of_isHex heven hhex, ?_⟩
  rw [reply_hexdec_of_isHex heven' hhex', hexDecode_map_up]
  rfl

/-- HEXB is HEXENC of one byte, which fits every configuration (`30_encoding.md` R70). -/
theorem reply_hexb (c : Config) (b : Byte) : reply c (.hexb b) = reply c (.hexenc [b]) :=
  (reply_hexenc_of_fits (l := [b]) (c.fits_of_le_three (by simp))).symm

/-- An answer of HEXENC is the encoding, since the one other outcome is the refusal. -/
theorem eq_seq_of_reply_hexenc {c : Config} {l : List Byte} {r : Response} (h : reply c (.hexenc l) = .next r) :
    r = .seq (hexEncode l) := by
  cases hl : c.fits (2 * l.length) with
  | false => exact nomatch (reply_hexenc_eq_refused hl).symm.trans h
  | true =>
    cases (reply_hexenc_of_fits hl).symm.trans h
    rfl

/-- Settles O51: both commands answer with an encoding, whose elements are digits' characters. -/
theorem hexOutputAlphabet : Obligations.HexOutputAlphabet := by
  intro c i r hi h x hx
  obtain ⟨l, hl⟩ : ∃ l, reply c (.hexenc l) = .next r := by
    obtain ⟨b, rfl⟩ | ⟨l, rfl⟩ := hi
    · exact ⟨[b], (reply_hexb c b).symm.trans h⟩
    · exact ⟨l, h⟩
  obtain rfl := eq_seq_of_reply_hexenc hl
  obtain ⟨n, rfl⟩ := exists_hexChar_of_mem_hexEncode hx
  exact hexChar_range n

end Sys2Proof.Machine

/-! ## Rules for the three fields of a manufacturer code -/

namespace Sys2Proof.Machine

section Fields

variable {x y z : Byte}

theorem toNat_extractLsb'_eq_div_mod {w : Nat} (v : BitVec w) (start len : Nat) :
    (v.extractLsb' start len).toNat = v.toNat / 2 ^ start % 2 ^ len := by
  rw [BitVec.extractLsb'_toNat, Nat.shiftRight_eq_div_pow]

/-- A code with bit 15 clear is not negative (`43_manufacturer.md` R171). -/
theorem reply_mfrname16_of_toNat_lt (c : Config) {v : Code16} (hv : v.toNat < 32768) :
    reply c (.mfrname16 v) = .next (.seq (unpackNat v.toNat)) :=
  reply_mfrname16_of_nonneg (BitVec.toInt_pos_iff.2 (by omega))

/-- An unpacked code is a 5-bit field of the code above 64 (`43_manufacturer.md` R172). -/
theorem ofNat_eq_add_field {v : Code16} {start k : Nat} (hk : k = v.toNat / 2 ^ start % 32) :
    BitVec.ofNat 8 (64 + k) = 64#8 + (v.extractLsb' start 5).setWidth 8 := by
  have hfield : (v.extractLsb' start 5).toNat = k := (toNat_extractLsb'_eq_div_mod v start 5).trans hk.symm
  rw [BitVec.ofNat_add, ← hfield, BitVec.ofNat_toNat]

/-- The value of a packed code whose three codes are from 64 to 95: the sum is below 2^15 and does not wrap. -/
theorem toNat_ofInt_packSum (hx : 64 ≤ x.toNat ∧ x.toNat ≤ 95) (hy : 64 ≤ y.toNat ∧ y.toNat ≤ 95)
    (hz : 64 ≤ z.toNat ∧ z.toNat ≤ 95) : (BitVec.ofInt 16 (packSum x y z)).toNat =
      (x.toNat - 64) * 1024 + (y.toNat - 64) * 32 + (z.toNat - 64) := by
  rw [BitVec.toNat_ofInt, packSum]
  omega

/-- Unpacking gives back three codes from 64 to 95, each a field plus 64. -/
theorem unpackNat_pack (hx : 64 ≤ x.toNat ∧ x.toNat ≤ 95) (hy : 64 ≤ y.toNat ∧ y.toNat ≤ 95)
    (hz : 64 ≤ z.toNat ∧ z.toNat ≤ 95) :
    unpackNat ((x.toNat - 64) * 1024 + (y.toNat - 64) * 32 + (z.toNat - 64)) = [x, y, z] := by
  have hcode {v : Byte} {k : Nat} (hk : k = v.toNat - 64) (hv : 64 ≤ v.toNat) : BitVec.ofNat 8 (64 + k) = v := by
    rw [hk, Nat.add_sub_cancel' hv, BitVec.ofNat_toNat, BitVec.setWidth_eq]
  rw [unpackNat, hcode (v := x) (by omega) hx.1, hcode (v := y) (by omega) hy.1, hcode (v := z) (by omega) hz.1]

theorem reply_mfrpack (c : Config) (x y z : Byte) :
    reply c (.mfrpack [x, y, z]) = .next ⟨.ok, (BitVec.ofInt 16 (packSum x y z)).setWidth 32, []⟩ := rfl

end Fields

/-! ## The remaining obligations on the manufacturer codes -/

/-- Settles O56: with bit 15 clear the code is below 2^15, so its quotients and remainders are its bit fields. -/
theorem unpackBitFields : Obligations.UnpackBitFields := by
  intro c x hx
  have hlt : x.toNat < 32768 := BitVec.toNat_lt_of_msb_false (x.msb_eq_getLsbD_last.trans hx)
  rw [reply_mfrname16_of_toNat_lt c hlt, unpackNat, ofNat_eq_add_field (v := x) (start := 10) (by omega),
    ofNat_eq_add_field (v := x) (start := 5) (by omega), ofNat_eq_add_field (v := x) (start := 0) (by omega)]
  rfl

/-- Settles O57: the packed value is the three fields weighted 1024, 32 and 1, each of them below 32. -/
theorem packBitFields : Obligations.PackBitFields := by
  intro c x y z hvalid
  obtain ⟨hx, hy, hz, -⟩ := by simpa only [List.forall_mem_cons] using hvalid
  have hvalue : ((BitVec.ofInt 16 (packSum x y z)).setWidth 32).toNat =
      (x.toNat - 64) * 1024 + (y.toNat - 64) * 32 + (z.toNat - 64) := by
    rw [BitVec.toNat_setWidth_of_le (by decide), toNat_ofInt_packSum (by omega) (by omega) (by omega)]
  refine ⟨_, reply_mfrpack c x y z, ?_, ?_, ?_, BitVec.eq_of_toNat_eq (y := 0#17) ?_, ?_, ?_⟩
  all_goals simp only [toNat_extractLsb'_eq_div_mod, hvalue, BitVec.toNat_ofNat]
  all_goals omega

/-- Settles O58: the packed code is not negative, and each code is 64 more than the field it was packed into. -/
theorem mfrRoundTrip : Obligations.MfrRoundTrip := by
  intro c x y z hcodes
  obtain ⟨hx, hy, hz, -⟩ := by simpa only [List.forall_mem_cons] using hcodes
  have hvalue := toNat_ofInt_packSum hx hy hz
  refine ⟨_, reply_mfrpack c x y z, ?_⟩
  rw [BitVec.setWidth_setWidth_of_le _ (by decide), BitVec.setWidth_eq, reply_mfrname16_of_toNat_lt c (by omega),
    hvalue, unpackNat_pack hx hy hz]
  rfl

/-- Settles O60: each pair has one reply, and a command answers with its reply. -/
theorem equalCommands : Obligations.EqualCommands := by
  intro s b w
  simp only [exec_eq_answer]
  refine ⟨?_, ?_, ?_⟩
  · rw [reply_extbit, reply_getbit_of_le _ b 7 (by decide)]
    rfl
  · rw [reply_hexb]
  · rw [reply_mfrname32]
    rfl

end Sys2Proof.Machine
